-- ==== Sys2Proof/Word.lean ====
section
/-! DEFINITION. The words of the machine: 32-bit registers, bytes, and the 16-bit reference colours (00_scope.md R10, R12). -/

namespace Sys2Proof

/-- A register word, `REG_W` = 32 bits (R10, R23). -/
abbrev Word := BitVec 32

/-- A byte of a data space, or one 8-bit colour channel (R50, R119). -/
abbrev Byte := BitVec 8

/-- A 16-bit reference colour (R78). -/
abbrev Half := BitVec 16

end Sys2Proof
end

