-- ==== Sys2Proof/Syntax.lean ====
section
/-! DEFINITION. The five commands, one constructor per row of spec/opcode_table.json (30_encoding.md R71). A command has no
fields: its operands are registers (R70, R74). -/

namespace Sys2Proof

/-- A command, which is also the format it selects (R3, R104). -/
inductive Instr where
  /-- DEC.I4, 4-bit intensity (R182). -/
  | decI4
  /-- DEC.I8, 8-bit intensity (R181). -/
  | decI8
  /-- DEC.IA4, 4-bit intensity and 4-bit alpha (R183). -/
  | decIA4
  /-- DEC.IA8, 8-bit intensity and 8-bit alpha (R184). -/
  | decIA8
  /-- DEC.CMPR, block-compressed colour (R140). -/
  | decCMPR
deriving DecidableEq, Repr

end Sys2Proof
end

