-- ==== Sys2Proof/Decode.lean ====
section
/-! DEFINITION. Command words: the decoder of 30_encoding.md R70 to R75 (the TXD compares the whole 32-bit word) and the
encoder of R71's table. -/

namespace Sys2Proof

/-- Why a word selects no command. -/
inductive DecodeReject where
  /-- One of the 2^32 - 5 reserved words (R72); a command started with one ends with UNSUPPORTED_FORMAT (R222). -/
  | reservedWord
deriving DecidableEq, Repr

/-- `FormatOf` of R102: the command a word selects, by R71's table, or its rejection by name (R72). -/
def decode (w : Word) : Except DecodeReject Instr :=
  if w = 0x00000000#32 then .ok .decI4
  else if w = 0x00000001#32 then .ok .decI8
  else if w = 0x00000002#32 then .ok .decIA4
  else if w = 0x00000003#32 then .ok .decIA8
  else if w = 0x0000000E#32 then .ok .decCMPR
  else .error .reservedWord

/-- The command word of each command (R71). -/
def encode : Instr → Word
  | .decI4 => 0x00000000#32
  | .decI8 => 0x00000001#32
  | .decIA4 => 0x00000002#32
  | .decIA8 => 0x00000003#32
  | .decCMPR => 0x0000000E#32

/-- The word whose low `nbits` bits are those of `w`, all higher bits 0, as the TXD latches it: one 32-bit value, with no byte
order (10_state.md R33, 20_memory.md R67, log 23). -/
def tableWord (nbits w : Nat) : Word := BitVec.ofNat 32 (w % 2 ^ nbits)

/-- The command the decoder reads from a word of the opcode table; a value that no 32 bits hold is no command word (R75). -/
def decodeTableWord (nbits w : Nat) : Option Instr :=
  if w % 2 ^ nbits < 2 ^ 32 then
    match decode (tableWord nbits w) with
    | .ok i => some i
    | .error _ => none
  else none

end Sys2Proof
end

