-- ==== Sys2Proof/Config.lean ====
section
/-! DEFINITION. What the platform fixes (00_scope.md R10) and the free values (93_implementation_defined.md, "any value"). -/

namespace Sys2Proof

/-- How the platform places the two data spaces (20_memory.md R50, R68). `separate`: two spaces that share no byte.
`shared srcAt dstAt`: SRC and DST are views of one memory, SRC address `a` being its byte `srcAt + a` and DST address `a`
its byte `dstAt + a` (DESIGN CHOICE, log 12). -/
inductive MemoryPlan where
  | separate
  | shared (srcAt dstAt : Nat)
deriving DecidableEq, Repr

/-- The OPEN parameters of R10. They stand in State, no step changes them, and a statement about every state is one about
every value of them (log 2). -/
structure Platform where
  /-- `SRC_SPACE_BYTES` -/
  srcSpaceBytes : Nat
  /-- `DST_SPACE_BYTES` -/
  dstSpaceBytes : Nat
  plan : MemoryPlan
  /-- `REG_BASE`: the bus address of the register block's offset 0 (20_memory.md R62, log 20). -/
  regBase : Nat
  /-- `N_INST`: how many instances the platform has. They share nothing (60_exceptions.md R236); State is one of them (log 19). -/
  instances : Nat
deriving DecidableEq, Repr

/-- R10's bounds: each space has 1 to 2^32 bytes, and there is at least one instance. -/
abbrev Platform.wf (p : Platform) : Prop :=
  (1 ≤ p.srcSpaceBytes ∧ p.srcSpaceBytes ≤ 2 ^ 32) ∧ (1 ≤ p.dstSpaceBytes ∧ p.dstSpaceBytes ≤ 2 ^ 32) ∧ 1 ≤ p.instances

/-- The largest spaces R10 allows, separate, one instance, the register block at bus address 0 (DESIGN CHOICE, log 2). -/
def Platform.standard : Platform :=
  { srcSpaceBytes := 2 ^ 32, dstSpaceBytes := 2 ^ 32, plan := .separate, regBase := 0, instances := 1 }

/-- Free value: byte `k` of PAL where the spec leaves PAL unspecified (R35, U6), at draw `n` (log 5). -/
opaque Config.freePalByte (n k : Nat) : Byte

/-- Free value: the source cursor after a reset action (R37, R250), at draw `n`; 32 bits hold it (log 5). -/
opaque Config.freeCursor (n : Nat) : Word

/-- Free values: the tile origin between commands (R22, R38), at draw `n` (log 5). -/
opaque Config.freeOriginCol (n : Nat) : Word

opaque Config.freeOriginRow (n : Nat) : Word

/-- Free value: the sub-block number, 0 to 3 (R38), at draw `n` (log 5). -/
opaque Config.freeSubBlock (n : Nat) : BitVec 2

/-- Free values: the tile-relative pixel, each 0 to 7 (R38, R84), at draw `n` (log 5). -/
opaque Config.freeTileCol (n : Nat) : BitVec 3

opaque Config.freeTileRow (n : Nat) : BitVec 3

/-- Free choice of R251: whether byte `k` of an abandoned command's destination buffer holds its decoded value (true) or its
old one (false), at draw `n` (log 6). -/
opaque Config.freeByteDecoded (n k : Nat) : Bool

end Sys2Proof
end

