-- ==== Sys2Proof/Machine/State.lean ====
section
/-! DEFINITION. The state of the TXD and of its host as plain data (10_state.md), the reasons a step can stop, and the state
right after reset (70_reset_and_hazards.md R250). -/

namespace Sys2Proof.Machine

/-- The seven registers of the register block (R23). -/
inductive Register where
  | width | height | srcBase | srcLen | dstBase | cmd | status
deriving DecidableEq, Repr

/-- The contents of the register block (R23). STATUS is the word the host reads; Machine/Flags.lean names its fields. -/
structure Regs where
  width : Word
  height : Word
  srcBase : Word
  srcLen : Word
  dstBase : Word
  cmd : Word
  status : Word
deriving DecidableEq, Repr

/-- One RGBA value: the byte sequence [R, G, B, A] (R16, R85). -/
structure Rgba where
  r : Byte
  g : Byte
  b : Byte
  a : Byte
deriving DecidableEq, Repr

/-- PAL, the 16-byte palette scratch: entry `e` is bytes `4e .. 4e+3` (R35, R149). -/
structure Palette where
  p0 : Rgba
  p1 : Rgba
  p2 : Rgba
  p3 : Rgba
deriving DecidableEq, Repr

/-- The scan counters (R38): tile origin `(xx, yy)`, sub-block number `s`, tile-relative pixel `(x, y)`. -/
structure Scan where
  xx : Nat
  yy : Nat
  s : Nat
  x : Nat
  y : Nat
deriving DecidableEq, Repr

/-- The decoder's internal state (R35, R37, R38). No host access reaches it. -/
structure Scratch where
  pal : Palette
  cursor : Nat
  scan : Scan
deriving DecidableEq, Repr

/-- A byte memory: cells at strictly rising addresses, none equal to what an unlisted address reads as (Machine/Ops.lean). -/
abbrev Memory := List Host.Cell

/-- FAULTS (R42), the set of recorded hazards: `HAZ_REG_WRITE_BUSY` (R254), `HAZ_DST_BUSY` (R255), `HAZ_SRC_BUSY` (R256). -/
structure Hazards where
  regWriteBusy : Bool
  dstBusy : Bool
  srcBusy : Bool
deriving DecidableEq, Repr

/-- The two agents (R20). -/
inductive Agent where
  | host | decoder
deriving DecidableEq, Repr

/-- One operation of the host: a bus transaction on the register block (R33, R86, R88), `WAIT` and `LOADSRC` (R86), a byte
access to a data space (R41, R255, R256, log 27), or a reset (R260). -/
inductive HostOp where
  /-- Write `value` to a bus address, as an access of `bytes` bytes. -/
  | busWrite (addr bytes : Nat) (value : Word)
  /-- Read a bus address, as an access of `bytes` bytes. -/
  | busRead (addr bytes : Nat)
  /-- Read STATUS until BUSY = 0. -/
  | wait
  /-- Write bytes into SRC at an address. -/
  | loadSrc (addr : Nat) (bytes : List Byte)
  | readSrc (addr : Nat)
  | writeDst (addr : Nat) (value : Byte)
  | readDst (addr : Nat)
  | reset
deriving DecidableEq, Repr

/-- What a read gave the host. -/
inductive HostReply where
  | word (v : Word)
  | byte (v : Byte)
deriving DecidableEq, Repr

/-- The host's side of a run: the operations still to do, who moves while BUSY = 1 (log 1), what its reads returned, newest
first, and the operation it executed last (R264). The model's own fields (log 9). -/
structure HostSide where
  ops : List HostOp
  turns : List Agent
  replies : List HostReply
  last : Option HostOp
deriving DecidableEq, Repr

structure State where
  regs : Regs
  scratch : Scratch
  /-- The source space (R41); on a platform with one memory, that memory. -/
  src : Memory
  /-- The destination space (R41); on a platform with one memory, not used. -/
  dst : Memory
  /-- FAULTS (R42). -/
  faults : Hazards
  /-- REFUSED (R42). -/
  refused : Bool
  platform : Platform
  host : HostSide
  /-- How many draws of free values have been made (log 5, log 6). -/
  draws : Nat
deriving DecidableEq, Repr

/-- Why the machine stops. -/
inductive Fault where
  /-- Raised by `step`: BUSY = 0, so the decoder has no step (R121, R238), and the host has no operation left (R264). Safe:
  nothing is claimed of what follows (log 8). -/
  | noAgentEnabled
deriving DecidableEq, Repr

/-- Why an instruction has no meaning. -/
inductive Refusal where
  /-- Raised by `exec` alone, for a command that has no meaning yet; no arm does. Safe: the run stops. -/
  | notModelled (mnemonic : String)
deriving DecidableEq, Repr

/-- Every register 0: STATUS 0 is BUSY = DONE = ERR = 0 and ERRCODE = 0 (R23, R250). -/
def Regs.reset : Regs :=
  { width := 0, height := 0, srcBase := 0, srcLen := 0, dstBase := 0, cmd := 0, status := 0 }

def Rgba.zero : Rgba := { r := 0, g := 0, b := 0, a := 0 }

/-- The spec leaves the decoder's internal state unspecified at reset (R35, R37, R38, R250); zero is a DESIGN CHOICE (log 4). -/
def Scratch.reset : Scratch :=
  { pal := { p0 := Rgba.zero, p1 := Rgba.zero, p2 := Rgba.zero, p3 := Rgba.zero }
    cursor := 0
    scan := { xx := 0, yy := 0, s := 0, x := 0, y := 0 } }

def Hazards.none : Hazards := { regWriteBusy := false, dstBusy := false, srcBusy := false }

/-- The machine right after reset on platform `p`: registers at R250's values, nothing recorded (R42), nothing listed in
either memory (log 3), no host operation placed (log 7). -/
def State.resetOn (p : Platform) : State :=
  { regs := Regs.reset, scratch := Scratch.reset, src := [], dst := [], faults := Hazards.none, refused := false,
    platform := p, host := { ops := [], turns := [], replies := [], last := none }, draws := 0 }

/-- The machine right after reset (R250), on the largest platform with separate spaces (log 2). -/
def State.reset : State := State.resetOn Platform.standard

end Sys2Proof.Machine
end

