-- ==== Sys2Proof/Machine/Flags.lean ====
section
/-! DEFINITION. Flags and predicates (10_state.md R30, R40): the STATUS word and its fields, the error codes of 60_exceptions.md
R221, and the sub-block predicate OPAQUE (41_block_compressed.md R146). -/

namespace Sys2Proof.Machine

/-- The errors of a command (R221). -/
inductive ErrorCode where
  | unsupportedFormat | dimension | truncated | range
deriving DecidableEq, Repr

/-- R221's numbers. -/
def ErrorCode.code : ErrorCode → BitVec 4
  | .unsupportedFormat => 1#4
  | .dimension => 2#4
  | .truncated => 3#4
  | .range => 4#4

/-- The STATUS word with these fields, reserved bits 0 (R30, R31). -/
def statusWord (busy done err : Bool) (code : BitVec 4) : Word :=
  0#24 ++ code ++ 0#1 ++ BitVec.ofBool err ++ BitVec.ofBool done ++ BitVec.ofBool busy

/-- STATUS at a command's start (R100). -/
def statusStarted : Word := statusWord true false false 0#4

/-- STATUS at a command's successful end (R105). -/
def statusDone : Word := statusWord false true false 0#4

/-- STATUS at a command's error end (R227). -/
def statusError (e : ErrorCode) : Word := statusWord false false true e.code

/-- STATUS[0] (R30). -/
def Regs.busy (r : Regs) : Bool := r.status.getLsbD 0

/-- STATUS[1] (R30). -/
def Regs.done (r : Regs) : Bool := r.status.getLsbD 1

/-- STATUS[2] (R30). -/
def Regs.err (r : Regs) : Bool := r.status.getLsbD 2

/-- STATUS[7:4] (R30). -/
def Regs.errCode (r : Regs) : BitVec 4 := r.status.extractLsb' 4 4

/-- The decoder's phase (R34): BUSY when true, IDLE when false. -/
def State.busy (s : State) : Bool := s.regs.busy

/-- OPAQUE (R40, R146): color1 > color2 as unsigned 16-bit words. -/
def isOpaque (color1 color2 : Half) : Bool := BitVec.ult color2 color1

end Sys2Proof.Machine
end

