-- ==== Sys2Proof/Machine/Operands.lean ====
section
/-! DEFINITION. What a command reads: the register operands (30_encoding.md R74), the tile geometry and required length (R84),
the stream encodings (R76 to R83), the expanders (40_common.md R110 to R112) and the palette (41_block_compressed.md R145 to R149). -/

namespace Sys2Proof.Machine

/-! The register block's map. -/

/-- The byte offset of a register (R23). -/
def Register.offset : Register → Nat
  | .width => 0x00
  | .height => 0x04
  | .srcBase => 0x08
  | .srcLen => 0x0C
  | .dstBase => 0x10
  | .cmd => 0x14
  | .status => 0x18

/-- The register at an offset; none for an offset that is not in R23's table (R32). -/
def registerAt (offset : Nat) : Option Register :=
  if offset = 0x00 then some .width
  else if offset = 0x04 then some .height
  else if offset = 0x08 then some .srcBase
  else if offset = 0x0C then some .srcLen
  else if offset = 0x10 then some .dstBase
  else if offset = 0x14 then some .cmd
  else if offset = 0x18 then some .status
  else none

/-- Operand assembly (R74): the five operand registers, zero-extended. -/
structure Operands where
  w : Nat
  h : Nat
  sb : Nat
  sl : Nat
  db : Nat
deriving DecidableEq, Repr

def State.operands (s : State) : Operands :=
  { w := s.regs.width.toNat, h := s.regs.height.toNat, sb := s.regs.srcBase.toNat, sl := s.regs.srcLen.toNat,
    db := s.regs.dstBase.toNat }

/-- Length of the destination buffer in bytes, W*H*4 (R52). -/
def Operands.dstLen (o : Operands) : Nat := o.w * o.h * 4

/-! Tile geometry (R84). -/

/-- `tw` of R84. -/
def tileWidth : Instr → Nat
  | .decCMPR => 8
  | .decI8 => 8
  | .decI4 => 8
  | .decIA4 => 8
  | .decIA8 => 4

/-- `th` of R84. -/
def tileHeight : Instr → Nat
  | .decCMPR => 8
  | .decI8 => 4
  | .decI4 => 8
  | .decIA4 => 4
  | .decIA8 => 4

/-- Bits per pixel of R84. -/
def bitsPerPixel : Instr → Nat
  | .decCMPR => 4
  | .decI8 => 8
  | .decI4 => 4
  | .decIA4 => 8
  | .decIA8 => 16

/-- The required source length `req(W, H)` of R84. -/
def requiredLength (i : Instr) (w h : Nat) : Nat :=
  match i with
  | .decCMPR => w * h / 2
  | .decI8 => w * h
  | .decI4 => w * h / 2
  | .decIA4 => w * h
  | .decIA8 => 2 * w * h

/-! Bit-replication expanders (R110 to R112). There is none for fewer than 4 bits (R109, U12). -/

/-- R110: `(n << 3) | (n >> 2)`. -/
def expand5 (n : BitVec 5) : Byte := (n.setWidth 8 <<< 3) ||| (n.setWidth 8 >>> 2)

/-- R111: `(n << 2) | (n >> 4)`. -/
def expand6 (n : BitVec 6) : Byte := (n.setWidth 8 <<< 2) ||| (n.setWidth 8 >>> 4)

/-- R112: `(n << 4) | n`. -/
def expand4 (n : BitVec 4) : Byte := (n.setWidth 8 <<< 4) ||| n.setWidth 8

/-! Samples of the packed-intensity streams (R80 to R83). -/

/-- byte[7:4]. -/
def highNibble (b : Byte) : BitVec 4 := b.extractLsb' 4 4

/-- byte[3:0]. -/
def lowNibble (b : Byte) : BitVec 4 := b.extractLsb' 0 4

/-- I8: R = G = B = A = i (R181). -/
def pixelI8 (i : Byte) : Rgba := { r := i, g := i, b := i, a := i }

/-- I4: R = G = B = A = expand4 of the nibble (R182). -/
def pixelI4 (n : BitVec 4) : Rgba := { r := expand4 n, g := expand4 n, b := expand4 n, a := expand4 n }

/-- The nibble of an I4 byte that holds the pixel of tile-relative column `x` (R81, R182). -/
def nibbleI4 (b : Byte) (x : Nat) : BitVec 4 := if x % 2 = 0 then highNibble b else lowNibble b

/-- IA4: high nibble alpha, low nibble intensity (R82, R183). -/
def pixelIA4 (b : Byte) : Rgba :=
  { r := expand4 (lowNibble b), g := expand4 (lowNibble b), b := expand4 (lowNibble b), a := expand4 (highNibble b) }

/-- IA8: first byte alpha, second byte intensity (R54, R83, R184). -/
def pixelIA8 (alpha intensity : Byte) : Rgba := { r := intensity, g := intensity, b := intensity, a := alpha }

/-! The colour palette interpolator (R144 to R149). -/

/-- `Ref(c)` of R145, from the RGB565 fields of R78. -/
def refColour (c : Half) : Rgba :=
  { r := expand5 (c.extractLsb' 11 5), g := expand6 (c.extractLsb' 5 6), b := expand5 (c.extractLsb' 0 5), a := 255#8 }

/-- `(3*a + 5*b) >> 3` of R147, exact (R119). -/
def blend (a b : Byte) : Byte := BitVec.ofNat 8 ((3 * a.toNat + 5 * b.toNat) >>> 3)

/-- `(a + b) >> 1` of R148, exact (R119). -/
def average (a b : Byte) : Byte := BitVec.ofNat 8 ((a.toNat + b.toNat) >>> 1)

/-- Entries 2 and 3 of the opaque branch: each channel of `near` weighs 5, of `far` 3 (R147). -/
def blendColour (far near : Rgba) : Rgba :=
  { r := blend far.r near.r, g := blend far.g near.g, b := blend far.b near.b, a := 255#8 }

/-- Entry 2 of the punch-through branch (R148). -/
def averageColour (p q : Rgba) : Rgba :=
  { r := average p.r q.r, g := average p.g q.g, b := average p.b q.b, a := 255#8 }

/-- BuildPalette (R145 to R149): all four entries from the two reference colours. -/
def buildPalette (color1 color2 : Half) : Palette :=
  let p0 := refColour color1
  let p1 := refColour color2
  if isOpaque color1 color2 then
    { p0 := p0, p1 := p1, p2 := blendColour p1 p0, p3 := blendColour p0 p1 }
  else
    let p2 := averageColour p0 p1
    { p0 := p0, p1 := p1, p2 := p2, p3 := { p2 with a := 0#8 } }

/-- The index of pixel `px` of a row: `(q >> (6 - 2*px)) & 3` (R79, R150). -/
def paletteIndex (q : Byte) (px : Nat) : BitVec 2 := (q >>> (6 - 2 * px)).extractLsb' 0 2

/-- Entry `e` of PAL (R35, R149). -/
def Palette.entry (p : Palette) (e : BitVec 2) : Rgba :=
  match e.toNat with
  | 0 => p.p0
  | 1 => p.p1
  | 2 => p.p2
  | _ => p.p3

/-- Byte `j` of an RGBA value, in the order R, G, B, A (R85). -/
def Rgba.byte (p : Rgba) (j : Nat) : Byte :=
  match j with
  | 0 => p.r
  | 1 => p.g
  | 2 => p.b
  | _ => p.a

/-- `PAL[k]`, byte `k` of the palette scratch (R35). -/
def Palette.byte (p : Palette) (k : Nat) : Byte := (p.entry (BitVec.ofNat 2 (k / 4))).byte (k % 4)

/-! The block-swizzle address mapper (R115, R141 to R143). -/

/-- The values of `for v in [0, n) step d`, in order (R15). -/
def stepsTo (n d : Nat) : List Nat := (List.range ((n + d - 1) / d)).map (· * d)

/-- One visit of a scan: tile origin `(xx, yy)` and tile-relative pixel `(x, y)` (R115). -/
structure Visit where
  xx : Nat
  yy : Nat
  x : Nat
  y : Nat
deriving DecidableEq, Repr

/-- The two inner loops of R115: the pixels of the tile at `(xx, yy)`, row after row. -/
def tileVisits (tw th xx yy : Nat) : List Visit :=
  (List.range th).flatMap fun y => (List.range tw).map fun x => { xx := xx, yy := yy, x := x, y := y }

/-- TileScan of R115: the pixels of a W×H image in the order a tiled format's samples are consumed. -/
def tileScan (tw th w h : Nat) : List Visit :=
  (stepsTo h th).flatMap fun yy => (stepsTo w tw).flatMap fun xx => tileVisits tw th xx yy

/-- The absolute `(col, row)` of a visit (R115). -/
def Visit.pixel (v : Visit) : Nat × Nat := (v.xx + v.x, v.yy + v.y)

/-- One sub-block of a CMPR image: macroblock origin and sub-block number (R141, R142). -/
structure SubBlock where
  xx : Nat
  yy : Nat
  s : Nat
deriving DecidableEq, Repr

/-- The sub-blocks of a W×H image in source order: macroblocks row-major, then UL, UR, BL, BR (R141 to R143). -/
def subBlockScan (w h : Nat) : List SubBlock :=
  (stepsTo h 8).flatMap fun yy =>
    (stepsTo w 8).flatMap fun xx =>
      (List.range 4).map fun s => { xx := xx, yy := yy, s := s }

/-- `sx = (s & 1) * 4` (R142). -/
def subBlockCol (s : Nat) : Nat := (s &&& 1) * 4

/-- `sy = (s >> 1) * 4` (R142). -/
def subBlockRow (s : Nat) : Nat := (s >>> 1) * 4

/-- The macroblock number of an origin (R141). -/
def macroblockNumber (w xx yy : Nat) : Nat := (yy / 8) * (w / 8) + xx / 8

/-- The source offset of a sub-block, `32*m + 8*s` (R143). -/
def subBlockOffset (w : Nat) (b : SubBlock) : Nat := 32 * macroblockNumber w b.xx b.yy + 8 * b.s

/-! The closed form (R117; for CMPR, R141 to R143 read backwards): which source bytes make the pixel at `(col, row)`. -/

/-- The source offset of the sample of pixel `(col, row)` (R117), `b` bits per pixel. -/
def sampleOffset (tw th b w col row : Nat) : Nat :=
  32 * ((row / th) * (w / tw) + col / tw) + ((row % th) * tw + col % tw) * b / 8

/-- The sub-block that covers pixel `(col, row)` (R142). -/
def subBlockOf (col row : Nat) : SubBlock :=
  { xx := 8 * (col / 8), yy := 8 * (row / 8), s := 2 * (row % 8 / 4) + col % 8 / 4 }

/-- The RGBA value of pixel `(col, row)` of an image of width `w` whose source byte `k` is `byte k`: each format's own rule
(R140, R181 to R184) at the offset of R117 or R143. -/
def imagePixel (i : Instr) (w : Nat) (byte : Nat → Byte) (col row : Nat) : Rgba :=
  let off := sampleOffset (tileWidth i) (tileHeight i) (bitsPerPixel i) w col row
  match i with
  | .decI8 => pixelI8 (byte off)
  | .decI4 => pixelI4 (nibbleI4 (byte off) col)
  | .decIA4 => pixelIA4 (byte off)
  | .decIA8 => pixelIA8 (byte off) (byte (off + 1))
  | .decCMPR =>
    let o := subBlockOffset w (subBlockOf col row)
    (buildPalette (byte o ++ byte (o + 1)) (byte (o + 2) ++ byte (o + 3))).entry
      (paletteIndex (byte (o + 4 + row % 4)) (col % 4))

end Sys2Proof.Machine
end

