-- ==== Sys2Proof/Machine/Ops.lean ====
section
/-! DEFINITION. The shared operations: memories and their views (20_memory.md), register updates, starting a command, the
checks, error end and successful end (40_common.md R100 to R105, 60_exceptions.md R227), the pixel write (R114), and the
frame every command runs in (R101). -/

namespace Sys2Proof.Machine

/-! Memory. -/

/-- What an address that is not listed reads as (DESIGN CHOICE, log 3). -/
def unlistedByte : Byte := 0#8

/-- Canonical form: strictly rising addresses, no cell that reads as an unlisted one. -/
abbrev Memory.wf (m : Memory) : Prop :=
  m.Pairwise (fun c d => c.1 < d.1) ∧ ∀ c ∈ m, c.2 ≠ unlistedByte

def Memory.read : Memory → Nat → Byte
  | [], _ => unlistedByte
  | (k, v) :: m, a => if k = a then v else Memory.read m a

/-- The memory with nothing listed at `a`. -/
def Memory.erase : Memory → Nat → Memory
  | [], _ => []
  | (k, v) :: m, a => if k = a then Memory.erase m a else (k, v) :: Memory.erase m a

/-- The memory with `b` listed at `a`, in address order. -/
def Memory.insert : Memory → Nat → Byte → Memory
  | [], a, b => [(a, b)]
  | (k, v) :: m, a, b =>
    if a < k then (a, b) :: (k, v) :: m
    else if a = k then (a, b) :: m
    else (k, v) :: Memory.insert m a b

/-- Store one byte, keeping the canonical form. -/
def Memory.write (m : Memory) (a : Nat) (b : Byte) : Memory :=
  if b = unlistedByte then m.erase a else m.insert a b

/-! The two spaces and where their bytes live (R50, R68). -/

/-- A byte's home: which of State's two lists (true: `src`), and its key there. -/
abbrev Loc := Bool × Nat

/-- Where byte `a` of SRC lives (log 12). -/
def srcLoc (p : Platform) (a : Nat) : Loc :=
  match p.plan with
  | .separate => (true, a)
  | .shared srcAt _ => (true, srcAt + a)

/-- Where byte `a` of DST lives (log 12). -/
def dstLoc (p : Platform) (a : Nat) : Loc :=
  match p.plan with
  | .separate => (false, a)
  | .shared _ dstAt => (true, dstAt + a)

def State.readLoc (s : State) (l : Loc) : Byte :=
  if l.1 then s.src.read l.2 else s.dst.read l.2

def State.writeLoc (s : State) (l : Loc) (b : Byte) : State :=
  if l.1 then { s with src := s.src.write l.2 b } else { s with dst := s.dst.write l.2 b }

/-- Byte `a` of the source space (R41). -/
def State.readSrc (s : State) (a : Nat) : Byte := s.readLoc (srcLoc s.platform a)

/-- Byte `a` of the destination space (R41). -/
def State.readDst (s : State) (a : Nat) : Byte := s.readLoc (dstLoc s.platform a)

def State.writeSrc (s : State) (a : Nat) (b : Byte) : State := s.writeLoc (srcLoc s.platform a) b

def State.writeDst (s : State) (a : Nat) (b : Byte) : State := s.writeLoc (dstLoc s.platform a) b

/-- `SrcByte(k)` (R14, R51). -/
def State.srcByte (s : State) (k : Nat) : Byte := s.readSrc (s.regs.srcBase.toNat + k)

/-- `SrcU16(k)`: the byte at the lower address is bits [15:8] (R53). -/
def State.srcU16 (s : State) (k : Nat) : Half := s.srcByte k ++ s.srcByte (k + 1)

/-! The two buffers of a command (R51, R52). -/

/-- `n` keys from `a` on, at one home. -/
def Loc.inRange (l : Loc) (start : Loc) (n : Nat) : Bool :=
  l.1 == start.1 && (decide (start.2 ≤ l.2) && decide (l.2 < start.2 + n))

/-- How many bytes of SRC the source buffer has: those of R51's range that exist (R41, log 28). -/
def State.srcBufferBytes (s : State) : Nat := min s.operands.sl (s.platform.srcSpaceBytes - s.operands.sb)

/-- How many bytes of DST the destination buffer has: those of R52's range that exist (R41, log 28). -/
def State.dstBufferBytes (s : State) : Nat := min s.operands.dstLen (s.platform.dstSpaceBytes - s.operands.db)

/-- Whether a byte belongs to the source buffer (R51, log 15, log 16). -/
def State.inSrcBuffer (s : State) (l : Loc) : Bool :=
  l.inRange (srcLoc s.platform s.operands.sb) s.srcBufferBytes

/-- Whether a byte belongs to the destination buffer (R52, log 15, log 16). -/
def State.inDstBuffer (s : State) (l : Loc) : Bool :=
  l.inRange (dstLoc s.platform s.operands.db) s.dstBufferBytes

/-- Whether the two buffers share a byte (R257); never on separate spaces (R68). -/
def State.buffersAlias (s : State) : Bool :=
  let p := srcLoc s.platform s.operands.sb
  let q := dstLoc s.platform s.operands.db
  p.1 == q.1 && (decide (0 < s.srcBufferBytes) && decide (0 < s.dstBufferBytes) &&
    (decide (p.2 < q.2 + s.dstBufferBytes) && decide (q.2 < p.2 + s.srcBufferBytes)))

/-! Register and bookkeeping updates. -/

def State.setRegs (s : State) (r : Regs) : State := { s with regs := r }

def State.setStatus (s : State) (v : Word) : State := { s with regs := { s.regs with status := v } }

def State.setScratch (s : State) (c : Scratch) : State := { s with scratch := c }

/-- Record a refusal (R32, R42, log 10). -/
def State.refuse (s : State) : State := { s with refused := true }

/-- Record hazards (R42): a recorded one stays. -/
def State.recordHazards (s : State) (f : Hazards) : State :=
  { s with faults :=
      { regWriteBusy := s.faults.regWriteBusy || f.regWriteBusy
        dstBusy := s.faults.dstBusy || f.dstBusy
        srcBusy := s.faults.srcBusy || f.srcBusy } }

/-- Give the host the value of a read. -/
def State.reply (s : State) (v : HostReply) : State :=
  { s with host := { s.host with replies := v :: s.host.replies } }

/-- Make one draw of free values. -/
def State.nextDraw (s : State) : State := { s with draws := s.draws + 1 }

/-! A command: start, checks, ends. -/

/-- Start (R100): the word is latched and STATUS shows BUSY alone. It checks nothing. -/
def startCommand (v : Word) (s : State) : State :=
  { s with regs := { s.regs with cmd := v, status := statusStarted } }

/-- TAKING AN ERROR, `raise Error(code)` (R227): STATUS is all that changes. There is no handler and no return from one; the
next start or a reset clears it (R229). -/
def raiseError (e : ErrorCode) (s : State) : State := s.setStatus (statusError e)

/-- Successful end (R105). -/
def endCommand (s : State) : State := s.setStatus statusDone

/-- The checks of R102 after the format is known, in R226's order: the first that fails (log 26). -/
def checkOperands (i : Instr) (o : Operands) (p : Platform) : Option ErrorCode :=
  if o.w % tileWidth i ≠ 0 ∨ o.h % tileHeight i ≠ 0 then some .dimension
  else if o.sl < requiredLength i o.w o.h then some .truncated
  else if p.srcSpaceBytes < o.sb + o.sl ∨ p.dstSpaceBytes < o.db + o.dstLen then some .range
  else none

/-- Validate (R102): the command a word selects, or the first error. -/
def validate (word : Word) (o : Operands) (p : Platform) : Except ErrorCode Instr :=
  match decode word with
  | .error _ => .error .unsupportedFormat
  | .ok i =>
    match checkOperands i o p with
    | some e => .error e
    | none => .ok i

/-- A command whose buffers share a byte is refused, whatever its word and operands: REFUSED is set and nothing else happens
(R68, R257, log 11). -/
def unlessAliased (s : State) (outcome : Host.Outcome State Fault Refusal) : Host.Outcome State Fault Refusal :=
  if s.buffersAlias then .next s.refuse else outcome

/-- Perform (R101) for command `i` with decode function `body`: check, then decode and end. -/
def performCommand (i : Instr) (body : Operands → State → State) (s : State) : Host.Outcome State Fault Refusal :=
  unlessAliased s <|
    match checkOperands i s.operands s.platform with
    | some e => .next (raiseError e s)
    | none => .next (endCommand (body s.operands s))

/-! The pixel write and the internal state. -/

/-- Byte offset in the destination buffer of pixel `(col, row)` (R52, R114). -/
def pixelOffset (w col row : Nat) : Nat := (row * w + col) * 4

/-- PutPixel (R114): the four bytes R, G, B, A at rising addresses. -/
def putPixel (w col row : Nat) (p : Rgba) (s : State) : State :=
  let a := s.regs.dstBase.toNat + pixelOffset w col row
  (((s.writeDst a p.r).writeDst (a + 1) p.g).writeDst (a + 2) p.b).writeDst (a + 3) p.a

def setCursor (c : Nat) (s : State) : State := s.setScratch { s.scratch with cursor := c }

def setPalette (p : Palette) (s : State) : State := s.setScratch { s.scratch with pal := p }

/-- The scan counters at a visit of a tiled scan (R38). -/
def setVisit (v : Visit) (s : State) : State :=
  s.setScratch { s.scratch with scan := { s.scratch.scan with xx := v.xx, yy := v.yy, x := v.x, y := v.y } }

/-- The scan counters at a sub-block (R38). -/
def setSubBlock (b : SubBlock) (s : State) : State :=
  s.setScratch { s.scratch with scan := { s.scratch.scan with xx := b.xx, yy := b.yy, s := b.s } }

/-- The tile-relative pixel (R38; for a CMPR pixel, counted in its macroblock, log 17). -/
def setTilePixel (x y : Nat) (s : State) : State :=
  s.setScratch { s.scratch with scan := { s.scratch.scan with x := x, y := y } }

/-- A palette of free bytes at draw `n` (R35, log 5). -/
def freePalette (n : Nat) : Palette :=
  let entry (e : Nat) : Rgba :=
    { r := Config.freePalByte n (4 * e), g := Config.freePalByte n (4 * e + 1),
      b := Config.freePalByte n (4 * e + 2), a := Config.freePalByte n (4 * e + 3) }
  { p0 := entry 0, p1 := entry 1, p2 := entry 2, p3 := entry 3 }

/-- Free scan counters at draw `n`, inside their ranges (R38, log 5). -/
def freeScan (n : Nat) : Scan :=
  { xx := (Config.freeOriginCol n).toNat, yy := (Config.freeOriginRow n).toNat, s := (Config.freeSubBlock n).toNat,
    x := (Config.freeTileCol n).toNat, y := (Config.freeTileRow n).toNat }

/-- The scan counters hold no value once a tiled decode is over (R22, U6); the cursor keeps `req` (R116), and PAL and the
sub-block number, which only DEC.CMPR uses, keep theirs (R35, R38, log 18). -/
def releaseTiled (s : State) : State :=
  (s.setScratch { s.scratch with scan := { freeScan s.draws with s := s.scratch.scan.s } }).nextDraw

/-- PAL and the scan counters hold no value once a CMPR decode is over (R22, R36, U6); the cursor is not used (R37, log 18). -/
def releaseCmpr (s : State) : State :=
  (s.setScratch { s.scratch with pal := freePalette s.draws, scan := freeScan s.draws }).nextDraw

/-- The internal state after a reset action: unspecified (R250). -/
def releaseAll (s : State) : State :=
  (s.setScratch { pal := freePalette s.draws, cursor := (Config.freeCursor s.draws).toNat, scan := freeScan s.draws }).nextDraw

end Sys2Proof.Machine
end

