-- ==== Sys2Proof/Machine/BlockCompressed.lean ====
section
/-! DEFINITION. The block-compressed family (41_block_compressed.md): the sub-block decoder and DEC.CMPR. -/

namespace Sys2Proof.Machine

/-- One pixel of a sub-block: index, palette entry, copy (R150, R151). -/
def placePixel (w : Nat) (q : Byte) (py : Nat) (s : State) (px : Nat) : State :=
  let c := s.scratch.scan
  let s1 := setTilePixel (subBlockCol c.s + px) (subBlockRow c.s + py) s
  putPixel w (c.xx + subBlockCol c.s + px) (c.yy + subBlockRow c.s + py) (s1.scratch.pal.entry (paletteIndex q px)) s1

/-- One row of a sub-block at source offset `o`: its index byte, then four pixels (R150). -/
def placeRow (w o : Nat) (s : State) (py : Nat) : State :=
  (List.range 4).foldl (placePixel w (s.srcByte (o + 4 + py)) py) s

/-- One sub-block: reference colours, palette, 16 pixels (R140, R144 to R151). -/
def decodeSubBlock (w : Nat) (s : State) (b : SubBlock) : State :=
  let o := subBlockOffset w b
  let s1 := setSubBlock b s
  let s2 := setPalette (buildPalette (s1.srcU16 o) (s1.srcU16 (o + 2))) s1
  (List.range 4).foldl (placeRow w o) s2

/-- `Decode[CMPR]`, DecodeCMPR of R140. -/
def decodeCMPR (o : Operands) (s : State) : State :=
  releaseCmpr ((subBlockScan o.w o.h).foldl (decodeSubBlock o.w) s)

/-- DEC.CMPR (R140). -/
def execCMPR (s : State) : Host.Outcome State Fault Refusal := performCommand .decCMPR decodeCMPR s

end Sys2Proof.Machine
end

