-- ==== Sys2Proof/Machine/PackedIntensity.lean ====
section
/-! DEFINITION. The packed-intensity family (42_packed_intensity.md): the macroblock tile decoder and DEC.I8, DEC.I4, DEC.IA4,
DEC.IA8. -/

namespace Sys2Proof.Machine

/-- A sample (R180): from the tile-relative column and the state, the pixel and the cursor after it. -/
abbrev Sample := Nat → State → Rgba × Nat

/-- SampleI8 (R181). -/
def sampleI8 : Sample := fun _ s =>
  (pixelI8 (s.srcByte s.scratch.cursor), s.scratch.cursor + 1)

/-- SampleI4 (R182): the cursor moves after the odd pixel. -/
def sampleI4 : Sample := fun x s =>
  (pixelI4 (nibbleI4 (s.srcByte s.scratch.cursor) x),
    if x % 2 = 0 then s.scratch.cursor else s.scratch.cursor + 1)

/-- SampleIA4 (R183). -/
def sampleIA4 : Sample := fun _ s =>
  (pixelIA4 (s.srcByte s.scratch.cursor), s.scratch.cursor + 1)

/-- SampleIA8 (R184). -/
def sampleIA8 : Sample := fun _ s =>
  (pixelIA8 (s.srcByte s.scratch.cursor) (s.srcByte (s.scratch.cursor + 1)), s.scratch.cursor + 2)

/-- The body of R180's loops at one visit: take the sample at the cursor, place the pixel. -/
def visitTiled (sample : Sample) (w : Nat) (s : State) (v : Visit) : State :=
  let s1 := setVisit v s
  let taken := sample s1.scratch.scan.x s1
  putPixel w (s1.scratch.scan.xx + s1.scratch.scan.x) (s1.scratch.scan.yy + s1.scratch.scan.y) taken.1
    (setCursor taken.2 s1)

/-- DecodeTiled (R180): the cursor starts at 0 and the scan of R115 runs. -/
def decodeTiled (tw th : Nat) (sample : Sample) (o : Operands) (s : State) : State :=
  (tileScan tw th o.w o.h).foldl (visitTiled sample o.w) (setCursor 0 s)

/-- `Decode[I8]` (R181). -/
def decodeI8 (o : Operands) (s : State) : State := releaseTiled (decodeTiled 8 4 sampleI8 o s)

/-- `Decode[I4]` (R182). -/
def decodeI4 (o : Operands) (s : State) : State := releaseTiled (decodeTiled 8 8 sampleI4 o s)

/-- `Decode[IA4]` (R183). -/
def decodeIA4 (o : Operands) (s : State) : State := releaseTiled (decodeTiled 8 4 sampleIA4 o s)

/-- `Decode[IA8]` (R184). -/
def decodeIA8 (o : Operands) (s : State) : State := releaseTiled (decodeTiled 4 4 sampleIA8 o s)

/-- DEC.I8 (R181). -/
def execI8 (s : State) : Host.Outcome State Fault Refusal := performCommand .decI8 decodeI8 s

/-- DEC.I4 (R182). -/
def execI4 (s : State) : Host.Outcome State Fault Refusal := performCommand .decI4 decodeI4 s

/-- DEC.IA4 (R183). -/
def execIA4 (s : State) : Host.Outcome State Fault Refusal := performCommand .decIA4 decodeIA4 s

/-- DEC.IA8 (R184). -/
def execIA8 (s : State) : Host.Outcome State Fault Refusal := performCommand .decIA8 decodeIA8 s

end Sys2Proof.Machine
end

