-- ==== Sys2Proof/Machine/Dispatch.lean ====
section
/-! DEFINITION. One arm per command (40_common.md R104). -/

namespace Sys2Proof.Machine

def exec (i : Instr) (s : State) : Host.Outcome State Fault Refusal :=
  match i with
  | .decI4 => Sys2Proof.Machine.execI4 s
  | .decI8 => Sys2Proof.Machine.execI8 s
  | .decIA4 => Sys2Proof.Machine.execIA4 s
  | .decIA8 => Sys2Proof.Machine.execIA8 s
  | .decCMPR => Sys2Proof.Machine.execCMPR s

end Sys2Proof.Machine
end

