-- ==== Sys2Proof/Machine/HostInterface.lean ====
section
/-! DEFINITION. The host's side: register access, memory access, polling and reset (10_state.md R24 to R33,
70_reset_and_hazards.md R250 to R260), and the decoder's Perform on the latched word (40_common.md R101). -/

namespace Sys2Proof.Machine

/-! Registers. -/

/-- `x[NAME]` (R13). -/
def Regs.get (r : Regs) : Register → Word
  | .width => r.width
  | .height => r.height
  | .srcBase => r.srcBase
  | .srcLen => r.srcLen
  | .dstBase => r.dstBase
  | .cmd => r.cmd
  | .status => r.status

/-- A host register write at BUSY = 0: an operand register takes the value (R25 to R29), CMD starts a command (R24, R100),
STATUS ignores it (R30). -/
def writeRegister (r : Register) (v : Word) (s : State) : State :=
  match r with
  | .width => s.setRegs { s.regs with width := v }
  | .height => s.setRegs { s.regs with height := v }
  | .srcBase => s.setRegs { s.regs with srcBase := v }
  | .srcLen => s.setRegs { s.regs with srcLen := v }
  | .dstBase => s.setRegs { s.regs with dstBase := v }
  | .cmd => startCommand v s
  | .status => s

/-- The register a bus access names: a whole aligned word at an offset of R23's table from `REG_BASE`, or none (R32, R33,
R260, log 20). -/
def accessedRegister (p : Platform) (addr bytes : Nat) : Option Register :=
  if bytes = 4 ∧ p.regBase ≤ addr then registerAt (addr - p.regBase) else none

/-- A bus write (R24 to R33); while BUSY = 1 it is the hazard of R254 and has no effect. -/
def hostBusWrite (addr bytes : Nat) (v : Word) (s : State) : State :=
  match accessedRegister s.platform addr bytes with
  | none => s.refuse
  | some r =>
    if s.busy then s.recordHazards { Hazards.none with regWriteBusy := true }
    else writeRegister r v s

/-- A bus read: at any time, no side effect (R259). -/
def hostBusRead (addr bytes : Nat) (s : State) : State :=
  match accessedRegister s.platform addr bytes with
  | none => s.refuse
  | some r => s.reply (.word (s.regs.get r))

/-- One poll of WAIT (R86, R259, log 24): read STATUS, and keep waiting while BUSY = 1. -/
def hostWait (s : State) : State :=
  let s1 := s.reply (.word s.regs.status)
  if s.busy then { s1 with host := { s1.host with ops := .wait :: s1.host.ops } } else s1

/-! Memory. -/

/-- The hazards of a host write to a byte (R255, R256). -/
def writeHazards (s : State) (l : Loc) : Hazards :=
  { Hazards.none with dstBusy := s.busy && s.inDstBuffer l, srcBusy := s.busy && s.inSrcBuffer l }

/-- A host write of one byte: none of effect when it is a hazard. -/
def hostWriteLoc (l : Loc) (b : Byte) (s : State) : State :=
  if s.busy && (s.inDstBuffer l || s.inSrcBuffer l) then s.recordHazards (writeHazards s l)
  else s.writeLoc l b

/-- A host read of one byte: no value when it is the hazard of R255; reads of the source buffer are allowed (R256). -/
def hostReadLoc (l : Loc) (s : State) : State :=
  if s.busy && s.inDstBuffer l then s.recordHazards { Hazards.none with dstBusy := true }
  else s.reply (.byte (s.readLoc l))

/-- A host write of one SRC byte; an address outside the space is refused (R41, R260, log 14). -/
def hostWriteSrc (a : Nat) (b : Byte) (s : State) : State :=
  if a < s.platform.srcSpaceBytes then hostWriteLoc (srcLoc s.platform a) b s else s.refuse

/-- LOADSRC (R86): byte after byte from `a` on (log 13). -/
def hostLoadSrc : Nat → List Byte → State → State
  | _, [], s => s
  | a, b :: bs, s => hostLoadSrc (a + 1) bs (hostWriteSrc a b s)

def hostReadSrc (a : Nat) (s : State) : State :=
  if a < s.platform.srcSpaceBytes then hostReadLoc (srcLoc s.platform a) s else s.refuse

def hostWriteDst (a : Nat) (b : Byte) (s : State) : State :=
  if a < s.platform.dstSpaceBytes then hostWriteLoc (dstLoc s.platform a) b s else s.refuse

def hostReadDst (a : Nat) (s : State) : State :=
  if a < s.platform.dstSpaceBytes then hostReadLoc (dstLoc s.platform a) s else s.refuse

/-! Perform and reset. -/

/-- Perform (R101) on the word in CMD: a reserved word ends with UNSUPPORTED_FORMAT (R72, R222), unless it is refused (R257);
any other runs its command. -/
def perform (s : State) : Host.Outcome State Fault Refusal :=
  match decode s.regs.cmd with
  | .error _ => unlessAliased s (.next (raiseError .unsupportedFormat s))
  | .ok i => exec i s

/-- `Decode[fmt]` of R104's table. -/
def decodeImage (i : Instr) (o : Operands) (s : State) : State :=
  match i with
  | .decI4 => decodeI4 o s
  | .decI8 => decodeI8 o s
  | .decIA4 => decodeIA4 o s
  | .decIA8 => decodeIA8 o s
  | .decCMPR => decodeCMPR o s

/-- Bytes `0 .. n-1` of the destination buffer each take their value in `decoded` or keep their own, by the free choice at the
current draw (R251, log 6). -/
def mixBuffer (decoded : State) (n : Nat) (s : State) : State :=
  (List.range n).foldl
    (fun t k =>
      let a := s.operands.db + k
      if Config.freeByteDecoded s.draws k then t.writeDst a (decoded.readDst a) else t) s

/-- What a reset while BUSY = 1 leaves in the memories (R251): a command whose buffers share a byte is refused (R257, log 11);
one that would pass its checks leaves a mix; one that would end with an error has no decoded value and leaves nothing (log 6). -/
def abandonCommand (s : State) : State :=
  if s.buffersAlias then s.refuse
  else
    match validate s.regs.cmd s.operands s.platform with
    | .error _ => s
    | .ok i => mixBuffer (decodeImage i s.operands s) s.operands.dstLen s

/-- The reset action (R250, R251): registers at their reset values, internal state unspecified, SRC and DST as they were but for
an abandoned command; FAULTS and REFUSED are not cleared. -/
def hostReset (s : State) : State :=
  let s1 := if s.busy then abandonCommand s else s
  releaseAll (s1.setRegs Regs.reset)

/-- One operation of the host. -/
def hostStep (op : HostOp) (s : State) : State :=
  match op with
  | .busWrite addr bytes v => hostBusWrite addr bytes v s
  | .busRead addr bytes => hostBusRead addr bytes s
  | .wait => hostWait s
  | .loadSrc a bs => hostLoadSrc a bs s
  | .readSrc a => hostReadSrc a s
  | .writeDst a b => hostWriteDst a b s
  | .readDst a => hostReadDst a s
  | .reset => hostReset s

/-! Host programs (R86, R87). -/

/-- `WR <REG>, <value>`: the pair of the register's offset and the value (R86, R88), at the platform's `REG_BASE` (R23). -/
def HostOp.wr (p : Platform) (r : Register) (v : Word) : HostOp := .busWrite (p.regBase + r.offset) 4 v

/-- `RD <REG>` (R86, R88). -/
def HostOp.rd (p : Platform) (r : Register) : HostOp := .busRead (p.regBase + r.offset) 4

/-- `DEC fmt, W, H, src, srclen, dst` (R87); with `encode i` for `fmt` it is the pseudo-instruction of command `i` (log 25). -/
def decProgram (p : Platform) (fmt w h src srcLen dst : Word) : List HostOp :=
  [.wr p .width w, .wr p .height h, .wr p .srcBase src, .wr p .srcLen srcLen, .wr p .dstBase dst, .wr p .cmd fmt, .wait]

end Sys2Proof.Machine
end

