-- ==== Sys2Proof/Machine/Step.lean ====
section
/-! DEFINITION. One step of the machine: the decoder's Perform or one operation of the host. -/

namespace Sys2Proof.Machine

/-- The state with its first turn taken. -/
def State.afterTurn (s : State) : State := { s with host := { s.host with turns := s.host.turns.tail } }

/-- The state with the host's first operation taken, which becomes the last one executed. -/
def State.afterOp (s : State) : State :=
  { s with host := { s.host with ops := s.host.ops.tail, last := s.host.ops.head? } }

/-- Whether the next turn is the host's (log 1). -/
def State.hostsTurn (s : State) : Bool := s.host.turns.head? == some .host

/-- One step. While BUSY = 1 the first turn says who moves; with no turn left, or no operation left, it is the decoder, so
Perform is taken after finitely many host steps (R262). While BUSY = 0 only the host moves (R121). With nothing to do the
machine is stuck (log 8). -/
def step (s : State) : Host.Outcome State Fault Refusal :=
  if s.busy then
    match s.host.ops with
    | op :: _ => if s.hostsTurn then .next (hostStep op s.afterTurn.afterOp) else perform s.afterTurn
    | [] => perform s.afterTurn
  else
    match s.host.ops with
    | op :: _ => .next (hostStep op s.afterOp)
    | [] => .fault .noAgentEnabled

/-- The state in which the next step performs the command word `w`: the word is in CMD with BUSY alone set, as a host write to
CMD leaves them (R100), and the decoder has the next turn (log 7). -/
def State.withFetchWord (s : State) (nbits w : Nat) : State :=
  { startCommand (tableWord nbits w) s with host := { s.host with turns := .decoder :: s.host.turns } }

end Sys2Proof.Machine
end

