-- ==== Sys2Proof/WellFormed.lean ====
section
/-! DEFINITION. Well-formed commands and host operations: what 10_state.md R32, R33 and R41 allow a host to ask. -/

namespace Sys2Proof

/-- A command has no field (30_encoding.md R70), so there is nothing to check. -/
def Instr.wf : Instr → Bool
  | .decI4 => true
  | .decI8 => true
  | .decIA4 => true
  | .decIA8 => true
  | .decCMPR => true

/-- A host operation the TXD's interface lists: whole words at offsets of R23's table from `REG_BASE`, addresses inside the spaces. -/
def Machine.HostOp.wf (p : Platform) : Machine.HostOp → Bool
  | .busWrite addr bytes _ => (Machine.accessedRegister p addr bytes).isSome
  | .busRead addr bytes => (Machine.accessedRegister p addr bytes).isSome
  | .wait => true
  | .loadSrc a bs => bs.isEmpty || decide (a + bs.length ≤ p.srcSpaceBytes)
  | .readSrc a => decide (a < p.srcSpaceBytes)
  | .writeDst a _ => decide (a < p.dstSpaceBytes)
  | .readDst a => decide (a < p.dstSpaceBytes)
  | .reset => true

end Sys2Proof
end

