-- ==== Sys2Proof/Safety.lean ====
section
/-! DEFINITION. What statements are said in: when a command passes its checks, what it leaves alone, the invariant of every state,
a clean run and its end. -/

namespace Sys2Proof.Machine

/-! Commands. -/

/-- Command `i` passes every check of R102 in state `s`, and its buffers share no byte (R257). -/
structure Accepts (i : Instr) (s : State) : Prop where
  width : s.operands.w % tileWidth i = 0
  height : s.operands.h % tileHeight i = 0
  length : requiredLength i s.operands.w s.operands.h ≤ s.operands.sl
  source : s.operands.sb + s.operands.sl ≤ s.platform.srcSpaceBytes
  destination : s.operands.db + s.operands.w * s.operands.h * 4 ≤ s.platform.dstSpaceBytes
  noAlias : s.buffersAlias = false

/-- The state `s` with only STATUS changed. -/
def withStatus (s : State) (v : Word) : State := { s with regs := { s.regs with status := v } }

/-- Everything but the registers, the internal state, the memories and the count of draws is the same. -/
structure SameSurroundings (s t : State) : Prop where
  faults : t.faults = s.faults
  refused : t.refused = s.refused
  platform : t.platform = s.platform
  host : t.host = s.host

/-- Every byte of either space outside the destination buffer reads as before. -/
def OnlyDestinationWritten (s t : State) : Prop :=
  ∀ l : Loc, s.inDstBuffer l = false → t.readLoc l = s.readLoc l

/-- Byte `j` of pixel `(col, row)` of the destination image, read from DST of `t` where the registers of `s` place it (R114). -/
def imageByte (s t : State) (col row j : Nat) : Byte :=
  t.readDst (s.regs.dstBase.toNat + (row * s.regs.width.toNat + col) * 4 + j)

/-! The invariant. -/

/-- What R30 and R31 say of STATUS: DONE and ERR never both, all clear while BUSY, ERRCODE nonzero exactly with ERR and never
above 4 (R221), reserved bits 0. -/
structure Regs.StatusLegal (r : Regs) : Prop where
  notBoth : ¬ (r.done = true ∧ r.err = true)
  busyAlone : r.busy = true → r.done = false ∧ r.err = false ∧ r.errCode = 0
  codeWithErr : r.errCode ≠ 0 ↔ r.err = true
  codeNamed : r.errCode.toNat ≤ 4
  bit3 : r.status.getLsbD 3 = false
  high : r.status.toNat < 256

/-- The scan counters and the cursor are inside their ranges (R37, R38). -/
structure Scratch.InRange (c : Scratch) : Prop where
  cursor : c.cursor < 2 ^ 32
  xx : c.scan.xx < 2 ^ 32
  yy : c.scan.yy < 2 ^ 32
  s : c.scan.s < 4
  x : c.scan.x < 8
  y : c.scan.y < 8

/-- A byte that belongs to one of the two spaces (R41). -/
def InSpaces (p : Platform) (l : Loc) : Prop :=
  (∃ a, a < p.srcSpaceBytes ∧ srcLoc p a = l) ∨ (∃ a, a < p.dstSpaceBytes ∧ dstLoc p a = l)

/-- Both memories are in canonical form. -/
def State.memWf (s : State) : Prop := Memory.wf s.src ∧ Memory.wf s.dst

/-- No byte is listed outside the spaces (R41, R103). -/
def State.memInSpaces (s : State) : Prop :=
  (∀ c ∈ s.src, InSpaces s.platform (true, c.1)) ∧ ∀ c ∈ s.dst, InSpaces s.platform (false, c.1)

/-- What every step keeps. -/
structure State.Inv (s : State) : Prop where
  platform : s.platform.wf
  status : s.regs.StatusLegal
  scratch : s.scratch.InRange
  memWf : s.memWf
  memInSpaces : s.memInSpaces

/-! Runs. -/

/-- `n` steps, stopping where the machine stops. -/
def runSteps : Nat → State → Host.Outcome State Fault Refusal
  | 0, s => .next s
  | n + 1, s =>
    match step s with
    | .next t => runSteps n t
    | .fault r => .fault r
    | .refused r => .refused r

/-- No fault and no refusal is recorded (R42, R264). -/
def State.clean (s : State) : Prop := s.faults = Hazards.none ∧ s.refused = false

/-- A `WAIT` or a read of STATUS (R264). -/
def HostOp.readsStatus (p : Platform) : HostOp → Bool
  | .wait => true
  | .busRead addr bytes => accessedRegister p addr bytes == some .status
  | .busWrite _ _ _ | .loadSrc _ _ | .readSrc _ | .writeDst _ _ | .readDst _ | .reset => false

/-- The end of a run (R264): the host has executed its last operation, that was a `WAIT` or a STATUS read, its reply has
BUSY = 0, and nothing is recorded. -/
def State.runEnded (s : State) : Prop :=
  s.clean ∧ s.host.ops = [] ∧ s.host.last.any (HostOp.readsStatus s.platform) = true ∧
    ∃ v : Word, s.host.replies.head? = some (.word v) ∧ v.getLsbD 0 = false

/-- Every hazard recorded in `f` is recorded in `g`. -/
def Hazards.subset (f g : Hazards) : Prop :=
  (f.regWriteBusy = true → g.regWriteBusy = true) ∧ (f.dstBusy = true → g.dstBusy = true) ∧
    (f.srcBusy = true → g.srcBusy = true)

end Sys2Proof.Machine
end

