-- ==== Sys2Proof/Certificates/Slice0/Obligations.lean ====
section
/-! DEFINITION. The statements for the provers. Each docstring names the rule of spec/ it formalises. -/

open Sys2Proof Sys2Proof.Machine

/-! Command words (30_encoding.md). -/

/-- R71's five words, and three reserved ones. -/
def Obligations.CommandWordsOfTheTable : Prop :=
  decode 0x00000000#32 = .ok .decI4 ∧ decode 0x00000001#32 = .ok .decI8 ∧ decode 0x00000002#32 = .ok .decIA4 ∧
  decode 0x00000003#32 = .ok .decIA8 ∧ decode 0x0000000E#32 = .ok .decCMPR ∧
  decode 0x00000004#32 = .error .reservedWord ∧ decode 0x0000000F#32 = .error .reservedWord ∧
  decode 0x80000001#32 = .error .reservedWord

/-- R70, R71, R75: a word decodes to a command exactly when it is the command's word. -/
def Obligations.DecodeInvertsEncode : Prop :=
  (∀ (w : Word) (i : Instr), decode w = .ok i ↔ w = encode i) ∧
  ∀ i : Instr, i.wf = true → decodeTableWord 32 (encode i).toNat = some i

/-- R72: writing a reserved word to an idle TXD starts a command, and its Perform changes STATUS alone, to UNSUPPORTED_FORMAT.
Buffers that share a byte are R257's (`AliasedCommandIsRefused`). -/
def Obligations.ReservedWordEndsUnsupported : Prop :=
  ∀ (s : State) (w : Word), s.busy = false → s.buffersAlias = false →
    w ≠ 0x00000000#32 → w ≠ 0x00000001#32 → w ≠ 0x00000002#32 → w ≠ 0x00000003#32 → w ≠ 0x0000000E#32 →
    let u : State := { s with regs := { s.regs with cmd := w, status := 0x00000001#32 } }
    hostStep (.busWrite (s.platform.regBase + 0x14) 4 w) s = u ∧ perform u = .next (withStatus u 0x00000014#32)

/-! Steps. -/

/-- R101, R72: while BUSY = 1, when the turn is not the host's or the host has nothing to do, a step is Perform of the word in
CMD, the turn being taken (the turns are the model's, log 1); for a word of R71's table that is `exec` of its command. -/
def Obligations.StepPerformsTheLatchedCommand : Prop :=
  ∀ s : State, s.busy = true → (s.host.ops = [] ∨ s.host.turns.head? ≠ some .host) →
    let u : State := { s with host := { s.host with turns := s.host.turns.tail } }
    step s = perform u ∧ ∀ i : Instr, decode s.regs.cmd = .ok i → step s = exec i u

/-- Log 7: the step after `withFetchWord` is `exec` of the word's command in the state R100's start leaves. -/
def Obligations.FetchWordIsPerformedNext : Prop :=
  ∀ (s : State) (i : Instr), step (s.withFetchWord 32 (encode i).toNat) =
    exec i { s with regs := { s.regs with cmd := encode i, status := 0x00000001#32 } }

/-- R121, log 1, log 8: while BUSY = 0 the decoder has no step, so a step is the host's next operation, or the stop; while
BUSY = 1 and the turn is the host's, it is the host's next operation too. The operation is then the last executed (R264). -/
def Obligations.StepTakesTheHostOperation : Prop :=
  ∀ s : State,
    (s.busy = false → s.host.ops = [] → step s = .fault .noAgentEnabled) ∧
    (∀ op ops, s.busy = false → s.host.ops = op :: ops →
      step s = .next (hostStep op { s with host := { s.host with ops := ops, last := some op } })) ∧
    (∀ op ops turns, s.busy = true → s.host.ops = op :: ops → s.host.turns = .host :: turns →
      step s = .next (hostStep op { s with host := { s.host with ops := ops, turns := turns, last := some op } }))

/-- R262: with no refused command, Perform is taken after at most as many host steps as there are turns: BUSY falls within
that many steps and one more. -/
def Obligations.BusyFallsWithinTheTurns : Prop :=
  ∀ s : State, s.busy = true → s.buffersAlias = false →
    ∃ n, n ≤ s.host.turns.length + 1 ∧ ∃ t : State, runSteps n s = .next t ∧ t.busy = false

/-- R264: the step of the host's last operation ends the run exactly when that operation is a `WAIT` or a STATUS read, BUSY is 0,
and no fault or refusal is recorded (the operation last executed stands in the model's own field, log 9). -/
def Obligations.RunEndsAtAStatusRead : Prop :=
  ∀ (s t : State) (op : HostOp), s.host.ops = [op] → (s.busy = true → s.hostsTurn = true) → step s = .next t →
    (t.runEnded ↔ t.clean ∧ s.busy = false ∧ op.readsStatus s.platform = true)

/-! Registers and the host (10_state.md, 70_reset_and_hazards.md). -/

/-- R100: a host write of `v` to CMD at BUSY = 0 latches it and shows BUSY alone, changing nothing else; at BUSY = 1 it is the
hazard of R254. -/
def Obligations.StartLatchesTheWord : Prop :=
  ∀ (s : State) (v : Word),
    (s.busy = false → hostStep (.busWrite (s.platform.regBase + 0x14) 4 v) s =
      { s with regs := { s.regs with cmd := v, status := 0x00000001#32 } }) ∧
    (s.busy = true → hostStep (.busWrite (s.platform.regBase + 0x14) 4 v) s = { s with faults := { s.faults with regWriteBusy := true } })

/-- R25 to R29, R258: at BUSY = 0 an operand register takes every value, a read returns it, and nothing else changes. -/
def Obligations.OperandRegisterReadsBack : Prop :=
  ∀ (s : State) (r : Register) (v : Word), s.busy = false → r ≠ .cmd → r ≠ .status →
    let t := hostStep (.wr s.platform r v) s
    hostStep (.rd s.platform r) t = { t with host := { t.host with replies := .word v :: t.host.replies } } ∧
    (∀ q, q ≠ r → t.regs.get q = s.regs.get q) ∧ t = { s with regs := t.regs }

/-- R23: the seven offsets from `REG_BASE` and no other name a register, and R30: a write to STATUS at BUSY = 0 is ignored. -/
def Obligations.RegisterBlockMap : Prop :=
  (∀ offset, registerAt offset =
    match offset with
    | 0x00 => some .width
    | 0x04 => some .height
    | 0x08 => some .srcBase
    | 0x0C => some .srcLen
    | 0x10 => some .dstBase
    | 0x14 => some .cmd
    | 0x18 => some .status
    | _ => none) ∧
  (∀ (p : Platform) (addr bytes : Nat) (r : Register),
    accessedRegister p addr bytes = some r ↔ bytes = 4 ∧ addr = p.regBase + r.offset) ∧
  ∀ (s : State) (v : Word), s.busy = false → hostStep (.busWrite (s.platform.regBase + 0x18) 4 v) s = s

/-- R259: a register read, busy or not, gives the register's value and changes nothing; WAIT reads STATUS until BUSY = 0. -/
def Obligations.RegisterReadsAtAnyTime : Prop :=
  ∀ s : State,
    (∀ r : Register, hostStep (.rd s.platform r) s =
      { s with host := { s.host with replies := .word (s.regs.get r) :: s.host.replies } }) ∧
    (s.busy = true → hostStep .wait s =
      { s with host := { s.host with ops := .wait :: s.host.ops, replies := .word s.regs.status :: s.host.replies } }) ∧
    (s.busy = false → hostStep .wait s =
      { s with host := { s.host with replies := .word s.regs.status :: s.host.replies } })

/-- R32, R33: an access that is not a whole aligned word at an offset of R23's table records a refusal and does nothing. -/
def Obligations.UnlistedAccessIsRefused : Prop :=
  ∀ (s : State) (offset bytes : Nat) (v : Word),
    (0x1C ≤ offset ∨ offset % 4 ≠ 0 ∨ bytes ≠ 4) →
    hostStep (.busWrite (s.platform.regBase + offset) bytes v) s = { s with refused := true } ∧
    hostStep (.busRead (s.platform.regBase + offset) bytes) s = { s with refused := true }

/-- R254: a register write while BUSY = 1 records HAZ_REG_WRITE_BUSY and has no effect, for each of the seven registers. -/
def Obligations.RegisterWriteWhileBusyIsAHazard : Prop :=
  ∀ (s : State) (r : Register) (v : Word), s.busy = true →
    hostStep (.wr s.platform r v) s = { s with faults := { s.faults with regWriteBusy := true } }

/-- R255: a read or write of a byte of the running command's destination buffer records HAZ_DST_BUSY; the read returns no value
and the write has no effect. Where the buffers share no byte, that is all the write records (`AccessesThroughEitherView` has the
rest). -/
def Obligations.DestinationAccessWhileBusyIsAHazard : Prop :=
  ∀ (s : State) (a : Nat) (b : Byte), s.busy = true → a < s.platform.dstSpaceBytes →
    s.regs.dstBase.toNat ≤ a → a < s.regs.dstBase.toNat + s.regs.width.toNat * s.regs.height.toNat * 4 →
    hostStep (.readDst a) s = { s with faults := { s.faults with dstBusy := true } } ∧
    (s.buffersAlias = false → hostStep (.writeDst a b) s = { s with faults := { s.faults with dstBusy := true } }) ∧
    ∃ f : Hazards, hostStep (.writeDst a b) s = { s with faults := f } ∧ f.dstBusy = true ∧ s.faults.subset f ∧
      f.regWriteBusy = s.faults.regWriteBusy

/-- R256: a write to a byte of the running command's source buffer records HAZ_SRC_BUSY and has no effect; reads of it, and
accesses outside the two buffers, are allowed. -/
def Obligations.SourceWriteWhileBusyIsAHazard : Prop :=
  ∀ (s : State) (a : Nat) (b : Byte), s.busy = true →
    (a < s.platform.srcSpaceBytes → s.regs.srcBase.toNat ≤ a → a < s.regs.srcBase.toNat + s.regs.srcLen.toNat →
      (∃ f : Hazards, hostStep (.loadSrc a [b]) s = { s with faults := f } ∧ f.srcBusy = true ∧ s.faults.subset f ∧
        f.regWriteBusy = s.faults.regWriteBusy) ∧
      (s.buffersAlias = false →
        hostStep (.loadSrc a [b]) s = { s with faults := { s.faults with srcBusy := true } } ∧
        hostStep (.readSrc a) s = { s with host := { s.host with replies := .byte (s.readSrc a) :: s.host.replies } })) ∧
    (a < s.platform.srcSpaceBytes → s.inSrcBuffer (srcLoc s.platform a) = false →
      s.inDstBuffer (srcLoc s.platform a) = false →
      hostStep (.loadSrc a [b]) s = s.writeSrc a b ∧
      hostStep (.readSrc a) s = { s with host := { s.host with replies := .byte (s.readSrc a) :: s.host.replies } }) ∧
    (a < s.platform.dstSpaceBytes → s.inSrcBuffer (dstLoc s.platform a) = false →
      s.inDstBuffer (dstLoc s.platform a) = false →
      hostStep (.writeDst a b) s = s.writeDst a b ∧
      hostStep (.readDst a) s = { s with host := { s.host with replies := .byte (s.readDst a) :: s.host.replies } })

/-- R41, R51, R52: the bytes of the two buffers, wherever they live, and when the buffers share one (R257). The model's readings:
a buffer's bytes are those of its range that exist (log 28), whatever the command (log 16). -/
def Obligations.BuffersAreTheBytesOfTheirRanges : Prop :=
  ∀ s : State,
    (∀ l : Loc, s.inSrcBuffer l = true ↔ ∃ a, a < s.platform.srcSpaceBytes ∧ s.regs.srcBase.toNat ≤ a ∧
      a < s.regs.srcBase.toNat + s.regs.srcLen.toNat ∧ l = srcLoc s.platform a) ∧
    (∀ l : Loc, s.inDstBuffer l = true ↔ ∃ a, a < s.platform.dstSpaceBytes ∧ s.regs.dstBase.toNat ≤ a ∧
      a < s.regs.dstBase.toNat + s.regs.width.toNat * s.regs.height.toNat * 4 ∧ l = dstLoc s.platform a) ∧
    (s.buffersAlias = true ↔ ∃ l : Loc, s.inSrcBuffer l = true ∧ s.inDstBuffer l = true)

/-- R255, R256 through either space's view. While BUSY = 1 a read of a byte of the destination buffer records HAZ_DST_BUSY alone
and returns nothing, any other read returns its byte; a write of a byte of a buffer records exactly the hazards of the buffers it
belongs to and has no effect. That an access is judged by the byte it reaches, not by the view, is the model's reading (log 15). -/
def Obligations.AccessesThroughEitherView : Prop :=
  ∀ (s : State) (a : Nat) (b : Byte), s.busy = true →
    (a < s.platform.srcSpaceBytes →
      let l := srcLoc s.platform a
      (s.inDstBuffer l = true → hostStep (.readSrc a) s = { s with faults := { s.faults with dstBusy := true } }) ∧
      (s.inDstBuffer l = false →
        hostStep (.readSrc a) s = { s with host := { s.host with replies := .byte (s.readSrc a) :: s.host.replies } }) ∧
      (s.inDstBuffer l = true ∨ s.inSrcBuffer l = true → hostStep (.loadSrc a [b]) s =
        { s with faults := { s.faults with
          dstBusy := s.faults.dstBusy || s.inDstBuffer l
          srcBusy := s.faults.srcBusy || s.inSrcBuffer l } })) ∧
    (a < s.platform.dstSpaceBytes →
      let l := dstLoc s.platform a
      (s.inDstBuffer l = true → hostStep (.readDst a) s = { s with faults := { s.faults with dstBusy := true } }) ∧
      (s.inDstBuffer l = false →
        hostStep (.readDst a) s = { s with host := { s.host with replies := .byte (s.readDst a) :: s.host.replies } }) ∧
      (s.inDstBuffer l = true ∨ s.inSrcBuffer l = true → hostStep (.writeDst a b) s =
        { s with faults := { s.faults with
          dstBusy := s.faults.dstBusy || s.inDstBuffer l
          srcBusy := s.faults.srcBusy || s.inSrcBuffer l } }))

/-- R41, R258: at BUSY = 0 the host writes and reads any byte of either space, no hazard recorded: a write changes that byte
alone, and a read returns it and changes nothing else. -/
def Obligations.MemoryAccessesWhenIdle : Prop :=
  ∀ (s : State) (a : Nat) (b : Byte), s.busy = false →
    (a < s.platform.srcSpaceBytes →
      hostStep (.loadSrc a [b]) s = s.writeSrc a b ∧ (s.writeSrc a b).readSrc a = b ∧
      (∀ l : Loc, l ≠ srcLoc s.platform a → (s.writeSrc a b).readLoc l = s.readLoc l) ∧
      hostStep (.readSrc a) s = { s with host := { s.host with replies := .byte (s.readSrc a) :: s.host.replies } }) ∧
    (a < s.platform.dstSpaceBytes →
      hostStep (.writeDst a b) s = s.writeDst a b ∧ (s.writeDst a b).readDst a = b ∧
      (∀ l : Loc, l ≠ dstLoc s.platform a → (s.writeDst a b).readLoc l = s.readLoc l) ∧
      hostStep (.readDst a) s = { s with host := { s.host with replies := .byte (s.readDst a) :: s.host.replies } })

/-- R64, R258, R260: after a command that passes its checks, BUSY is 0, and the host's read of each byte of the destination
buffer returns it with no hazard and no refusal. `Dec…WritesItsImage` say which byte it is. -/
def Obligations.ResultIsCollectedAfterTheCommand : Prop :=
  ∀ (i : Instr) (s : State), Accepts i s → ∃ t : State, exec i s = .next t ∧ t.busy = false ∧ t.regs.done = true ∧
    ∀ c r j, c < s.regs.width.toNat → r < s.regs.height.toNat → j < 4 →
      hostStep (.readDst (s.regs.dstBase.toNat + (r * s.regs.width.toNat + c) * 4 + j)) t =
        { t with host := { t.host with replies := .byte (imageByte s t c r j) :: t.host.replies } }

/-- R86, log 13: LOADSRC at BUSY = 0 puts its bytes at rising addresses from `a` on and changes nothing else. -/
def Obligations.LoadedSourceReadsBack : Prop :=
  ∀ (s : State) (a : Nat) (bs : List Byte), s.busy = false → a + bs.length ≤ s.platform.srcSpaceBytes →
    let t := hostStep (.loadSrc a bs) s
    (∀ k (hk : k < bs.length), t.readSrc (a + k) = bs[k]) ∧
    (∀ l : Loc, (∀ k < bs.length, l ≠ srcLoc s.platform (a + k)) → t.readLoc l = s.readLoc l) ∧
    t.regs = s.regs ∧ t.scratch = s.scratch ∧ t.draws = s.draws ∧ SameSurroundings s t

/-- R32, R33, R41, R260, log 14: a host operation that is well formed for the platform, a reset apart (it refuses a
running command whose buffers share a byte, log 11), records no refusal, and one that is not well formed records one. -/
def Obligations.IllFormedHostOperationsAreRefused : Prop :=
  ∀ (s : State) (op : HostOp),
    (op ≠ .reset → op.wf s.platform = true → (hostStep op s).refused = s.refused) ∧
    (op.wf s.platform = false → (hostStep op s).refused = true)

/-- R263: while BUSY = 1 no host operation but a reset changes a register, so Perform stays enabled on the same operands. -/
def Obligations.OnlyResetEndsARunningCommand : Prop :=
  ∀ (s : State) (op : HostOp), s.busy = true → op ≠ .reset →
    (hostStep op s).regs = s.regs ∧ (hostStep op s).busy = true

/-- R42: FAULTS and REFUSED are never cleared by a later step, a reset action included; and no step changes the platform. -/
def Obligations.RecordedFaultsAndRefusalsStay : Prop :=
  ∀ s t : State, step s = .next t →
    s.faults.subset t.faults ∧ (s.refused = true → t.refused = true) ∧ t.platform = s.platform

/-! Reset (70_reset_and_hazards.md). -/

/-- R23, R42, R250: after launch on any platform every register is 0, so the decoder is idle, nothing is recorded, and nothing
is listed in either memory (log 3). -/
def Obligations.ResetLeavesEveryRegisterZero : Prop :=
  ∀ p : Platform,
    let s := State.resetOn p
    (∀ r : Register, s.regs.get r = 0x00000000#32) ∧ s.busy = false ∧ s.regs.done = false ∧ s.regs.err = false ∧
    s.regs.errCode = 0#4 ∧ s.faults = { regWriteBusy := false, dstBusy := false, srcBusy := false } ∧ s.refused = false ∧
    s.src = [] ∧ s.dst = []

/-- R250: a reset at BUSY = 0 puts every register at 0, starts no command, and changes neither space, FAULTS nor REFUSED. -/
def Obligations.ResetActionWhenIdle : Prop :=
  ∀ s : State, s.busy = false →
    let t := hostStep .reset s
    (∀ r : Register, t.regs.get r = 0x00000000#32) ∧ t.src = s.src ∧ t.dst = s.dst ∧ SameSurroundings s t

/-- R251: a reset at BUSY = 1 puts every register at 0; each byte of the destination buffer is its old one or the one Perform
would have left, and every other byte is as it was. The model's readings: a command that would have ended with an error leaves
every byte old (log 6, from R227), and one whose buffers share a byte leaves every byte old and sets REFUSED (log 11). -/
def Obligations.ResetActionWhileBusy : Prop :=
  ∀ s : State, s.busy = true →
    let t := hostStep .reset s
    (∀ r : Register, t.regs.get r = 0x00000000#32) ∧ OnlyDestinationWritten s t ∧
    (∀ k, k < s.regs.width.toNat * s.regs.height.toNat * 4 →
      t.readDst (s.regs.dstBase.toNat + k) = s.readDst (s.regs.dstBase.toNat + k) ∨
      ∃ u : State, perform s = .next u ∧
        t.readDst (s.regs.dstBase.toNat + k) = u.readDst (s.regs.dstBase.toNat + k)) ∧
    t.faults = s.faults ∧ t.platform = s.platform ∧ t.host = s.host ∧
    (s.buffersAlias = false → t.refused = s.refused) ∧
    (s.buffersAlias = true → t.refused = true ∧ ∀ l : Loc, t.readLoc l = s.readLoc l)

/-! Errors (40_common.md R102, 60_exceptions.md). -/

/-- R226, R227, in the order of R102: a reserved word first, then for every command the first check that fails, gives the
error, and STATUS is all that changes. An image with one dimension 0 and the other bad is `EmptyImageWithABadDimension`, buffers
that share a byte are `AliasedCommandIsRefused`. -/
def Obligations.FirstFailingCheckIsReported : Prop :=
  (∀ s : State, s.buffersAlias = false → s.regs.cmd ≠ 0x00000000#32 → s.regs.cmd ≠ 0x00000001#32 →
    s.regs.cmd ≠ 0x00000002#32 → s.regs.cmd ≠ 0x00000003#32 → s.regs.cmd ≠ 0x0000000E#32 →
    perform s = .next (withStatus s 0x00000014#32)) ∧
  ∀ (i : Instr) (s : State), s.buffersAlias = false →
    let w := s.regs.width.toNat
    let h := s.regs.height.toNat
    (w ≠ 0 → h ≠ 0 → w % tileWidth i ≠ 0 ∨ h % tileHeight i ≠ 0 → exec i s = .next (withStatus s 0x00000024#32)) ∧
    (w % tileWidth i = 0 → h % tileHeight i = 0 → s.regs.srcLen.toNat < requiredLength i w h →
      exec i s = .next (withStatus s 0x00000034#32)) ∧
    (w % tileWidth i = 0 → h % tileHeight i = 0 → requiredLength i w h ≤ s.regs.srcLen.toNat →
      (s.platform.srcSpaceBytes < s.regs.srcBase.toNat + s.regs.srcLen.toNat ∨
        s.platform.dstSpaceBytes < s.regs.dstBase.toNat + w * h * 4) →
      exec i s = .next (withStatus s 0x00000044#32))

/-- Log 26, the model's reading of R102 and R107: an image with one dimension 0 whose other dimension is no multiple of the tile
ends with DIMENSION, STATUS alone changed. -/
def Obligations.EmptyImageWithABadDimension : Prop :=
  ∀ (i : Instr) (s : State),
    (s.regs.width = 0 ∧ s.regs.height.toNat % tileHeight i ≠ 0) ∨ (s.regs.height = 0 ∧ s.regs.width.toNat % tileWidth i ≠ 0) →
    exec i s = .next (withStatus s 0x00000024#32)

/-- R61, R228: a command that ends with an error leaves every byte of both spaces as it was. -/
def Obligations.ErrorEndWritesNoByte : Prop :=
  ∀ (i : Instr) (s t : State), exec i s = .next t → t.regs.err = true →
    ∀ l : Loc, t.readLoc l = s.readLoc l

/-- R68, R257: a command whose buffers share a byte is refused, whatever its word and operands: Perform only sets REFUSED, and
a reset that meets it sets REFUSED too (that nothing else changes, BUSY included, is log 11; that only bytes that exist are shared
is log 28). On separate spaces no command's buffers share a byte (R68). -/
def Obligations.AliasedCommandIsRefused : Prop :=
  (∀ s : State, (∃ l : Loc, s.inSrcBuffer l = true ∧ s.inDstBuffer l = true) →
    perform s = .next { s with refused := true } ∧ (∀ i : Instr, exec i s = .next { s with refused := true }) ∧
    (s.busy = true → (hostStep .reset s).refused = true)) ∧
  ∀ s : State, s.platform.plan = .separate → ∀ l : Loc, ¬ (s.inSrcBuffer l = true ∧ s.inDstBuffer l = true)

/-- R101, R105, R227, R253: the frame of every command. It answers a next state in which every register but STATUS is as it was
and nothing outside the destination buffer is written. The model's readings: that the internal state of the other family stays
is log 18, and what a command whose buffers share a byte leaves, to which R257 gives no meaning, is log 11. -/
def Obligations.CommandFrame : Prop :=
  ∀ (i : Instr) (s : State), ∃ t : State, exec i s = .next t ∧
    t.regs = { s.regs with status := t.regs.status } ∧ t.faults = s.faults ∧ t.platform = s.platform ∧ t.host = s.host ∧
    (s.buffersAlias = false → t.refused = s.refused) ∧ OnlyDestinationWritten s t ∧
    (i ≠ .decCMPR → t.scratch.pal = s.scratch.pal ∧ t.scratch.scan.s = s.scratch.scan.s) ∧
    (i = .decCMPR → t.scratch.cursor = s.scratch.cursor)

/-- R101, R105, R221, R227: a running command that is not refused ends with BUSY = 0 and one of the five end words: DONE, or ERR
with a code from 1 to 4. -/
def Obligations.CommandEndsWithANamedStatus : Prop :=
  ∀ s : State, s.buffersAlias = false → ∃ t : State, perform s = .next t ∧
    (t.regs.status = 0x00000002#32 ∨ t.regs.status = 0x00000014#32 ∨ t.regs.status = 0x00000024#32 ∨
      t.regs.status = 0x00000034#32 ∨ t.regs.status = 0x00000044#32)

/-! Datapath (40_common.md, 41_block_compressed.md). -/

/-- R110, R111, R112: the three expanders, on naturals, and the fields each widens. -/
def Obligations.ExpandersAreBitReplication : Prop :=
  (∀ n : BitVec 5, (expand5 n).toNat = (n.toNat <<< 3) ||| (n.toNat >>> 2)) ∧
  (∀ n : BitVec 6, (expand6 n).toNat = (n.toNat <<< 2) ||| (n.toNat >>> 4)) ∧
  (∀ n : BitVec 4, (expand4 n).toNat = (n.toNat <<< 4) ||| n.toNat ∧ (expand4 n).toNat = 17 * n.toNat) ∧
  expand5 0 = 0 ∧ expand5 31 = 255 ∧ expand5 16 = 132 ∧ expand6 0 = 0 ∧ expand6 63 = 255 ∧ expand6 32 = 130 ∧
  expand4 0 = 0 ∧ expand4 15 = 255 ∧ expand4 8 = 136 ∧
  (∀ c : Half, (refColour c).r = expand5 (c.extractLsb' 11 5) ∧ (refColour c).g = expand6 (c.extractLsb' 5 6) ∧
    (refColour c).b = expand5 (c.extractLsb' 0 5)) ∧
  (∀ n : BitVec 4, pixelI4 n = ⟨expand4 n, expand4 n, expand4 n, expand4 n⟩) ∧
  ∀ b : Byte, pixelIA4 b = ⟨expand4 (b.extractLsb' 0 4), expand4 (b.extractLsb' 0 4), expand4 (b.extractLsb' 0 4),
    expand4 (b.extractLsb' 4 4)⟩

/-- R113: where the expanders differ from rounding (halves cannot occur, so `(2*n*255 + m) / (2*m)` is the rounding of
`n*255/m`). -/
def Obligations.ExpandersAreNotRoundings : Prop :=
  (∀ n : BitVec 4, (expand4 n).toNat = (2 * n.toNat * 255 + 15) / 30) ∧
  (∀ n : BitVec 5, (expand5 n).toNat ≠ (2 * n.toNat * 255 + 31) / 62 ↔ n = 3 ∨ n = 7 ∨ n = 24 ∨ n = 28) ∧
  (∀ n : BitVec 6, (expand6 n).toNat ≠ (2 * n.toNat * 255 + 63) / 126 ↔
    (11 ≤ n.toNat ∧ n.toNat ≤ 15) ∨ (48 ≤ n.toNat ∧ n.toNat ≤ 52)) ∧
  expand5 3 = 24 ∧ expand5 7 = 57 ∧ expand5 24 = 198 ∧ expand5 28 = 231

/-- R84: the geometry, the bytes per tile, and the required length as tiles of 32 bytes. -/
def Obligations.RequiredLengthCountsTiles : Prop :=
  ∀ (i : Instr) (w h : Nat), tileWidth i * tileHeight i * bitsPerPixel i = 32 * 8 ∧
    (w % tileWidth i = 0 → h % tileHeight i = 0 →
      requiredLength i w h = (w / tileWidth i) * (h / tileHeight i) * 32 ∧
      requiredLength i w h * 8 = w * h * bitsPerPixel i)

/-- R145: entries 0 and 1 are the expanded reference colours, alpha 255, in both branches. -/
def Obligations.PaletteReferenceEntries : Prop :=
  (∀ c d : Half,
    (buildPalette c d).p0 =
      ⟨expand5 (c.extractLsb' 11 5), expand6 (c.extractLsb' 5 6), expand5 (c.extractLsb' 0 5), 255#8⟩ ∧
    (buildPalette c d).p1 =
      ⟨expand5 (d.extractLsb' 11 5), expand6 (d.extractLsb' 5 6), expand5 (d.extractLsb' 0 5), 255#8⟩) ∧
  (∀ d : Half, (buildPalette 0x07E0#16 d).p0 = { r := 0, g := 255, b := 0, a := 255 }) ∧
  ∀ d : Half, (buildPalette 0x1234#16 d).p0 = { r := 16, g := 69, b := 165, a := 255 }

/-- R147, R119 (a): with color1 > color2, entries 2 and 3 are the 3/8-5/8 blends of the expanded channels, exactly, and opaque. -/
def Obligations.OpaqueBranchBlends : Prop :=
  (buildPalette 0xFFFF#16 0x0000#16).p2 = ⟨159, 159, 159, 255⟩ ∧ (buildPalette 0xFFFF#16 0x0000#16).p3 = ⟨95, 95, 95, 255⟩ ∧
  ∀ c d : Half, d.toNat < c.toNat →
    let p := buildPalette c d
    (p.p2.r.toNat = (3 * p.p1.r.toNat + 5 * p.p0.r.toNat) >>> 3 ∧ p.p2.g.toNat = (3 * p.p1.g.toNat + 5 * p.p0.g.toNat) >>> 3 ∧
      p.p2.b.toNat = (3 * p.p1.b.toNat + 5 * p.p0.b.toNat) >>> 3 ∧ p.p2.a = 255#8) ∧
    (p.p3.r.toNat = (3 * p.p0.r.toNat + 5 * p.p1.r.toNat) >>> 3 ∧ p.p3.g.toNat = (3 * p.p0.g.toNat + 5 * p.p1.g.toNat) >>> 3 ∧
      p.p3.b.toNat = (3 * p.p0.b.toNat + 5 * p.p1.b.toNat) >>> 3 ∧ p.p3.a = 255#8)

/-- R148, R119 (b): with color1 ≤ color2, entry 2 is the average of the two colours, rounded down, opaque, and entry 3 has its
colour and alpha 0. -/
def Obligations.PunchThroughBranchAverages : Prop :=
  (buildPalette 0x0000#16 0xFFFF#16).p2 = ⟨127, 127, 127, 255⟩ ∧ (buildPalette 0x0000#16 0xFFFF#16).p3 = ⟨127, 127, 127, 0⟩ ∧
  ∀ c d : Half, c.toNat ≤ d.toNat →
    let p := buildPalette c d
    (p.p2.r.toNat = (p.p0.r.toNat + p.p1.r.toNat) >>> 1 ∧ p.p2.g.toNat = (p.p0.g.toNat + p.p1.g.toNat) >>> 1 ∧
      p.p2.b.toNat = (p.p0.b.toNat + p.p1.b.toNat) >>> 1 ∧ p.p2.a = 255#8) ∧
    p.p3 = { r := p.p2.r, g := p.p2.g, b := p.p2.b, a := 0#8 }

/-- R153: the corner cases of the interpolator, (a) to (f). -/
def Obligations.PaletteCornerCases : Prop :=
  (∀ c : Half,
    let p := buildPalette c c
    p.p0 = p.p1 ∧ p.p2 = p.p0 ∧ p.p3 = { p.p0 with a := 0#8 }) ∧
  ((buildPalette 0#16 0#16).p0 = ⟨0, 0, 0, 255⟩ ∧ (buildPalette 0#16 0#16).p3 = ⟨0, 0, 0, 0⟩) ∧
  (∀ c d : Half, d.toNat < c.toNat → ∀ e : BitVec 2, ((buildPalette c d).entry e).a = 255#8) ∧
  (∀ c d : Half, d.toNat < c.toNat →
    let p := buildPalette c d
    (p.p0.r = p.p1.r → p.p2.r = p.p0.r ∧ p.p3.r = p.p0.r) ∧ (p.p0.g = p.p1.g → p.p2.g = p.p0.g ∧ p.p3.g = p.p0.g) ∧
    (p.p0.b = p.p1.b → p.p2.b = p.p0.b ∧ p.p3.b = p.p0.b)) ∧
  (∀ c d : Half, (buildPalette c d).p0 = (buildPalette c d).p1 → c = d) ∧
  ∀ c d : Half, c.toNat ≤ d.toNat →
    let p := buildPalette c d
    p.p3.r = p.p2.r ∧ p.p3.g = p.p2.g ∧ p.p3.b = p.p2.b ∧ p.p3.a ≠ p.p2.a

/-- R79, R150: the index of pixel `px` of a row; R35, R149: the entry an index names, and its four bytes of PAL; R85: the order
of an RGBA value's bytes. -/
def Obligations.IndexPairsFromTheTop : Prop :=
  (∀ (q : Byte) (px : Nat), px < 4 → (paletteIndex q px).toNat = (q.toNat >>> (6 - 2 * px)) &&& 3) ∧
  (paletteIndex 0xE4#8 0 = 3 ∧ paletteIndex 0xE4#8 1 = 2 ∧ paletteIndex 0xE4#8 2 = 1 ∧ paletteIndex 0xE4#8 3 = 0) ∧
  (∀ p : Palette, p.entry 0 = p.p0 ∧ p.entry 1 = p.p1 ∧ p.entry 2 = p.p2 ∧ p.entry 3 = p.p3) ∧
  (∀ v : Rgba, v.byte 0 = v.r ∧ v.byte 1 = v.g ∧ v.byte 2 = v.b ∧ v.byte 3 = v.a) ∧
  ∀ (p : Palette) (e : BitVec 2) (j : Nat), j < 4 → p.byte (4 * e.toNat + j) = (p.entry e).byte j

/-! The address mapper (40_common.md R115 to R118, 41_block_compressed.md R141 to R143). -/

/-- R118 for the tiled scan: it visits every pixel of the image, each exactly once, and no other. -/
def Obligations.TileScanIsABijection : Prop :=
  ∀ (i : Instr) (w h : Nat), w % tileWidth i = 0 → h % tileHeight i = 0 →
    ((tileScan (tileWidth i) (tileHeight i) w h).map Visit.pixel).Nodup ∧
    ∀ c r, (c, r) ∈ (tileScan (tileWidth i) (tileHeight i) w h).map Visit.pixel ↔ c < w ∧ r < h

/-- R118 for the map of R142: the pixels of the sub-blocks are every pixel of the image, each exactly once. -/
def Obligations.SubBlockSwizzleIsABijection : Prop :=
  ∀ w h : Nat, w % 8 = 0 → h % 8 = 0 →
    let pixels := (subBlockScan w h).flatMap fun b => (List.range 4).flatMap fun py => (List.range 4).map fun px =>
      (b.xx + subBlockCol b.s + px, b.yy + subBlockRow b.s + py)
    pixels.Nodup ∧ ∀ c r, (c, r) ∈ pixels ↔ c < w ∧ r < h

/-! The five commands. Each statement is the command's completion: the checks passed, it answers a next state, and this is it. -/

/-- R80, R181, with the tile place of R117; the cursor ends at `req` (R116). -/
def Obligations.DecI8WritesItsImage : Prop :=
  ∀ s : State, Accepts .decI8 s → ∃ t : State, exec .decI8 s = .next t ∧
    t.regs = { s.regs with status := 0x00000002#32 } ∧ SameSurroundings s t ∧ OnlyDestinationWritten s t ∧
    t.scratch.cursor = s.regs.width.toNat * s.regs.height.toNat ∧
    ∀ c r, c < s.regs.width.toNat → r < s.regs.height.toNat →
      let off := 32 * ((r / 4) * (s.regs.width.toNat / 8) + c / 8) + ((r % 4) * 8 + c % 8)
      ∀ j < 4, imageByte s t c r j = s.srcByte off

/-- R81, R182, with the tile place of R117; the cursor ends at `req` (R116). -/
def Obligations.DecI4WritesItsImage : Prop :=
  ∀ s : State, Accepts .decI4 s → ∃ t : State, exec .decI4 s = .next t ∧
    t.regs = { s.regs with status := 0x00000002#32 } ∧ SameSurroundings s t ∧ OnlyDestinationWritten s t ∧
    t.scratch.cursor = s.regs.width.toNat * s.regs.height.toNat / 2 ∧
    ∀ c r, c < s.regs.width.toNat → r < s.regs.height.toNat →
      let b := (s.srcByte (32 * ((r / 8) * (s.regs.width.toNat / 8) + c / 8) + ((r % 8) * 8 + c % 8) / 2)).toNat
      ∀ j < 4, (imageByte s t c r j).toNat = 17 * (if c % 2 = 0 then b / 16 else b % 16)

/-- R82, R183, with the tile place of R117; the cursor ends at `req` (R116). -/
def Obligations.DecIA4WritesItsImage : Prop :=
  ∀ s : State, Accepts .decIA4 s → ∃ t : State, exec .decIA4 s = .next t ∧
    t.regs = { s.regs with status := 0x00000002#32 } ∧ SameSurroundings s t ∧ OnlyDestinationWritten s t ∧
    t.scratch.cursor = s.regs.width.toNat * s.regs.height.toNat ∧
    ∀ c r, c < s.regs.width.toNat → r < s.regs.height.toNat →
      let b := (s.srcByte (32 * ((r / 4) * (s.regs.width.toNat / 8) + c / 8) + ((r % 4) * 8 + c % 8))).toNat
      (∀ j < 3, (imageByte s t c r j).toNat = 17 * (b % 16)) ∧ (imageByte s t c r 3).toNat = 17 * (b / 16)

/-- R54, R83, R184, with the tile place of R117; the cursor ends at `req` (R116). -/
def Obligations.DecIA8WritesItsImage : Prop :=
  ∀ s : State, Accepts .decIA8 s → ∃ t : State, exec .decIA8 s = .next t ∧
    t.regs = { s.regs with status := 0x00000002#32 } ∧ SameSurroundings s t ∧ OnlyDestinationWritten s t ∧
    t.scratch.cursor = 2 * s.regs.width.toNat * s.regs.height.toNat ∧
    ∀ c r, c < s.regs.width.toNat → r < s.regs.height.toNat →
      let off := 32 * ((r / 4) * (s.regs.width.toNat / 4) + c / 4) + 2 * ((r % 4) * 4 + c % 4)
      (∀ j < 3, imageByte s t c r j = s.srcByte (off + 1)) ∧ imageByte s t c r 3 = s.srcByte off

/-- R140 to R151: the pixel at `(c, r)` is the palette entry of its sub-block that its two index bits name. -/
def Obligations.DecCMPRWritesItsImage : Prop :=
  ∀ s : State, Accepts .decCMPR s → ∃ t : State, exec .decCMPR s = .next t ∧
    t.regs = { s.regs with status := 0x00000002#32 } ∧ SameSurroundings s t ∧ OnlyDestinationWritten s t ∧
    ∀ c r, c < s.regs.width.toNat → r < s.regs.height.toNat →
      let o := 32 * ((r / 8) * (s.regs.width.toNat / 8) + c / 8) + 8 * (2 * (r % 8 / 4) + c % 8 / 4)
      let palette := buildPalette (s.srcByte o ++ s.srcByte (o + 1)) (s.srcByte (o + 2) ++ s.srcByte (o + 3))
      let e := (s.srcByte (o + 4 + r % 4)).toNat / 4 ^ (3 - c % 4) % 4
      ∀ j < 4, imageByte s t c r j = palette.byte (4 * e + j)

/-- R107: an image of no pixels whose other dimension is a multiple of the tile passes the dimension and length checks; it ends
DONE with both spaces as they were, unless a buffer leaves its space. -/
def Obligations.EmptyImageWritesNothing : Prop :=
  ∀ (i : Instr) (s : State), s.regs.width.toNat % tileWidth i = 0 → s.regs.height.toNat % tileHeight i = 0 →
    s.regs.width = 0 ∨ s.regs.height = 0 →
    (s.regs.srcBase.toNat + s.regs.srcLen.toNat ≤ s.platform.srcSpaceBytes → s.regs.dstBase.toNat ≤ s.platform.dstSpaceBytes →
      ∃ t : State, exec i s = .next t ∧ t.regs = { s.regs with status := 0x00000002#32 } ∧
        ∀ l : Loc, t.readLoc l = s.readLoc l) ∧
    (s.platform.srcSpaceBytes < s.regs.srcBase.toNat + s.regs.srcLen.toNat ∨
        s.platform.dstSpaceBytes < s.regs.dstBase.toNat →
      exec i s = .next (withStatus s 0x00000044#32))

/-- R106, R108: what a successful command writes is a function of the command, W, H and the first `req` source bytes. -/
def Obligations.OutputDependsOnTheRequiredBytesAlone : Prop :=
  ∀ (i : Instr) (s s' : State), Accepts i s → Accepts i s' →
    s.regs.width = s'.regs.width → s.regs.height = s'.regs.height →
    (∀ k, k < requiredLength i s.regs.width.toNat s.regs.height.toNat → s.srcByte k = s'.srcByte k) →
    ∃ t t' : State, exec i s = .next t ∧ exec i s' = .next t' ∧
      ∀ k, k < s.regs.width.toNat * s.regs.height.toNat * 4 →
        t.readDst (s.regs.dstBase.toNat + k) = t'.readDst (s'.regs.dstBase.toNat + k)

/-- R230: a command started again with the same registers gives the same STATUS and leaves every byte of both spaces as the
first one left it. -/
def Obligations.StartedAgainGivesTheSameOutcome : Prop :=
  ∀ (i : Instr) (s t : State), s.buffersAlias = false → exec i s = .next t →
    ∃ u : State, exec i (startCommand (encode i) t) = .next u ∧ u.regs.status = t.regs.status ∧
      ∀ l : Loc, u.readLoc l = t.readLoc l

/-- R120: an image decoded in two horizontal bands, the lower one right after the upper, is the image decoded by one command. The
lower band takes the rest of the source buffer; its two bases must fit their registers. -/
def Obligations.TwoBandsMakeOneImage : Prop :=
  ∀ (i : Instr) (s : State) (r0 : Nat), Accepts i s → r0 % tileHeight i = 0 → r0 ≤ s.regs.height.toNat →
    let w := s.regs.width.toNat
    let q := requiredLength i w r0
    s.regs.srcBase.toNat + q < 2 ^ 32 → s.regs.dstBase.toNat + r0 * w * 4 < 2 ^ 32 →
    ∃ t u v : State, exec i s = .next t ∧
      exec i { s with regs := { s.regs with height := BitVec.ofNat 32 r0 } } = .next u ∧
      exec i { u with regs := { u.regs with
          height := BitVec.ofNat 32 (s.regs.height.toNat - r0)
          srcBase := BitVec.ofNat 32 (s.regs.srcBase.toNat + q)
          srcLen := BitVec.ofNat 32 (s.regs.srcLen.toNat - q)
          dstBase := BitVec.ofNat 32 (s.regs.dstBase.toNat + r0 * w * 4) } } = .next v ∧
      ∀ l : Loc, v.readLoc l = t.readLoc l

/-! The invariant. -/

/-- R23, R30, R41, R250: the invariant holds after launch on every platform R10 allows. That the cursor and the scan counters
are in range there rests on the zeros the model chose (log 4): R37, R38 and R250 leave them unspecified. -/
def Obligations.ResetMeetsTheInvariant : Prop :=
  ∀ p : Platform, p.wf → (State.resetOn p).Inv

/-- R30, R31, R41, R103: every step keeps the invariant: STATUS stays legal, the cursor and counters stay in range,
both memories stay canonical, and no byte is listed outside the spaces. That the cursor and counters keep their ranges between
commands and after a reset is the ranges the model chose for their free values (log 5). -/
def Obligations.EveryStepKeepsTheInvariant : Prop :=
  ∀ s t : State, s.Inv → step s = .next t → t.Inv
end

