-- ==== Sys2Proof/Laws/State.lean ====
section
/-! SUPPORT. One lemma per field per update of State, true by rfl: a later proof rewrites with these and unfolds no update. -/

namespace Sys2Proof.Machine

@[simp] theorem setRegs_regs (s : State) (r : Regs) : (s.setRegs r).regs = r := rfl
@[simp] theorem setRegs_scratch (s : State) (r : Regs) : (s.setRegs r).scratch = s.scratch := rfl
@[simp] theorem setRegs_src (s : State) (r : Regs) : (s.setRegs r).src = s.src := rfl
@[simp] theorem setRegs_dst (s : State) (r : Regs) : (s.setRegs r).dst = s.dst := rfl
@[simp] theorem setRegs_faults (s : State) (r : Regs) : (s.setRegs r).faults = s.faults := rfl
@[simp] theorem setRegs_refused (s : State) (r : Regs) : (s.setRegs r).refused = s.refused := rfl
@[simp] theorem setRegs_platform (s : State) (r : Regs) : (s.setRegs r).platform = s.platform := rfl
@[simp] theorem setRegs_host (s : State) (r : Regs) : (s.setRegs r).host = s.host := rfl
@[simp] theorem setRegs_draws (s : State) (r : Regs) : (s.setRegs r).draws = s.draws := rfl

@[simp] theorem setStatus_regs (s : State) (v : Word) : (s.setStatus v).regs = { s.regs with status := v } := rfl
@[simp] theorem setStatus_scratch (s : State) (v : Word) : (s.setStatus v).scratch = s.scratch := rfl
@[simp] theorem setStatus_src (s : State) (v : Word) : (s.setStatus v).src = s.src := rfl
@[simp] theorem setStatus_dst (s : State) (v : Word) : (s.setStatus v).dst = s.dst := rfl
@[simp] theorem setStatus_faults (s : State) (v : Word) : (s.setStatus v).faults = s.faults := rfl
@[simp] theorem setStatus_refused (s : State) (v : Word) : (s.setStatus v).refused = s.refused := rfl
@[simp] theorem setStatus_platform (s : State) (v : Word) : (s.setStatus v).platform = s.platform := rfl
@[simp] theorem setStatus_host (s : State) (v : Word) : (s.setStatus v).host = s.host := rfl
@[simp] theorem setStatus_draws (s : State) (v : Word) : (s.setStatus v).draws = s.draws := rfl

@[simp] theorem setScratch_regs (s : State) (c : Scratch) : (s.setScratch c).regs = s.regs := rfl
@[simp] theorem setScratch_scratch (s : State) (c : Scratch) : (s.setScratch c).scratch = c := rfl
@[simp] theorem setScratch_src (s : State) (c : Scratch) : (s.setScratch c).src = s.src := rfl
@[simp] theorem setScratch_dst (s : State) (c : Scratch) : (s.setScratch c).dst = s.dst := rfl
@[simp] theorem setScratch_faults (s : State) (c : Scratch) : (s.setScratch c).faults = s.faults := rfl
@[simp] theorem setScratch_refused (s : State) (c : Scratch) : (s.setScratch c).refused = s.refused := rfl
@[simp] theorem setScratch_platform (s : State) (c : Scratch) : (s.setScratch c).platform = s.platform := rfl
@[simp] theorem setScratch_host (s : State) (c : Scratch) : (s.setScratch c).host = s.host := rfl
@[simp] theorem setScratch_draws (s : State) (c : Scratch) : (s.setScratch c).draws = s.draws := rfl

@[simp] theorem refuse_regs (s : State) : s.refuse.regs = s.regs := rfl
@[simp] theorem refuse_scratch (s : State) : s.refuse.scratch = s.scratch := rfl
@[simp] theorem refuse_src (s : State) : s.refuse.src = s.src := rfl
@[simp] theorem refuse_dst (s : State) : s.refuse.dst = s.dst := rfl
@[simp] theorem refuse_faults (s : State) : s.refuse.faults = s.faults := rfl
@[simp] theorem refuse_refused (s : State) : s.refuse.refused = true := rfl
@[simp] theorem refuse_platform (s : State) : s.refuse.platform = s.platform := rfl
@[simp] theorem refuse_host (s : State) : s.refuse.host = s.host := rfl
@[simp] theorem refuse_draws (s : State) : s.refuse.draws = s.draws := rfl

@[simp] theorem recordHazards_regs (s : State) (f : Hazards) : (s.recordHazards f).regs = s.regs := rfl
@[simp] theorem recordHazards_scratch (s : State) (f : Hazards) : (s.recordHazards f).scratch = s.scratch := rfl
@[simp] theorem recordHazards_src (s : State) (f : Hazards) : (s.recordHazards f).src = s.src := rfl
@[simp] theorem recordHazards_dst (s : State) (f : Hazards) : (s.recordHazards f).dst = s.dst := rfl
@[simp] theorem recordHazards_faults (s : State) (f : Hazards) : (s.recordHazards f).faults = { regWriteBusy := s.faults.regWriteBusy || f.regWriteBusy, dstBusy := s.faults.dstBusy || f.dstBusy, srcBusy := s.faults.srcBusy || f.srcBusy } := rfl
@[simp] theorem recordHazards_refused (s : State) (f : Hazards) : (s.recordHazards f).refused = s.refused := rfl
@[simp] theorem recordHazards_platform (s : State) (f : Hazards) : (s.recordHazards f).platform = s.platform := rfl
@[simp] theorem recordHazards_host (s : State) (f : Hazards) : (s.recordHazards f).host = s.host := rfl
@[simp] theorem recordHazards_draws (s : State) (f : Hazards) : (s.recordHazards f).draws = s.draws := rfl

@[simp] theorem reply_regs (s : State) (v : HostReply) : (s.reply v).regs = s.regs := rfl
@[simp] theorem reply_scratch (s : State) (v : HostReply) : (s.reply v).scratch = s.scratch := rfl
@[simp] theorem reply_src (s : State) (v : HostReply) : (s.reply v).src = s.src := rfl
@[simp] theorem reply_dst (s : State) (v : HostReply) : (s.reply v).dst = s.dst := rfl
@[simp] theorem reply_faults (s : State) (v : HostReply) : (s.reply v).faults = s.faults := rfl
@[simp] theorem reply_refused (s : State) (v : HostReply) : (s.reply v).refused = s.refused := rfl
@[simp] theorem reply_platform (s : State) (v : HostReply) : (s.reply v).platform = s.platform := rfl
@[simp] theorem reply_host (s : State) (v : HostReply) : (s.reply v).host = { s.host with replies := v :: s.host.replies } := rfl
@[simp] theorem reply_draws (s : State) (v : HostReply) : (s.reply v).draws = s.draws := rfl

@[simp] theorem nextDraw_regs (s : State) : s.nextDraw.regs = s.regs := rfl
@[simp] theorem nextDraw_scratch (s : State) : s.nextDraw.scratch = s.scratch := rfl
@[simp] theorem nextDraw_src (s : State) : s.nextDraw.src = s.src := rfl
@[simp] theorem nextDraw_dst (s : State) : s.nextDraw.dst = s.dst := rfl
@[simp] theorem nextDraw_faults (s : State) : s.nextDraw.faults = s.faults := rfl
@[simp] theorem nextDraw_refused (s : State) : s.nextDraw.refused = s.refused := rfl
@[simp] theorem nextDraw_platform (s : State) : s.nextDraw.platform = s.platform := rfl
@[simp] theorem nextDraw_host (s : State) : s.nextDraw.host = s.host := rfl
@[simp] theorem nextDraw_draws (s : State) : s.nextDraw.draws = s.draws + 1 := rfl

@[simp] theorem startCommand_regs (v : Word) (s : State) : (startCommand v s).regs = { s.regs with cmd := v, status := statusStarted } := rfl
@[simp] theorem startCommand_scratch (v : Word) (s : State) : (startCommand v s).scratch = s.scratch := rfl
@[simp] theorem startCommand_src (v : Word) (s : State) : (startCommand v s).src = s.src := rfl
@[simp] theorem startCommand_dst (v : Word) (s : State) : (startCommand v s).dst = s.dst := rfl
@[simp] theorem startCommand_faults (v : Word) (s : State) : (startCommand v s).faults = s.faults := rfl
@[simp] theorem startCommand_refused (v : Word) (s : State) : (startCommand v s).refused = s.refused := rfl
@[simp] theorem startCommand_platform (v : Word) (s : State) : (startCommand v s).platform = s.platform := rfl
@[simp] theorem startCommand_host (v : Word) (s : State) : (startCommand v s).host = s.host := rfl
@[simp] theorem startCommand_draws (v : Word) (s : State) : (startCommand v s).draws = s.draws := rfl

@[simp] theorem raiseError_regs (e : ErrorCode) (s : State) : (raiseError e s).regs = { s.regs with status := statusError e } := rfl
@[simp] theorem raiseError_scratch (e : ErrorCode) (s : State) : (raiseError e s).scratch = s.scratch := rfl
@[simp] theorem raiseError_src (e : ErrorCode) (s : State) : (raiseError e s).src = s.src := rfl
@[simp] theorem raiseError_dst (e : ErrorCode) (s : State) : (raiseError e s).dst = s.dst := rfl
@[simp] theorem raiseError_faults (e : ErrorCode) (s : State) : (raiseError e s).faults = s.faults := rfl
@[simp] theorem raiseError_refused (e : ErrorCode) (s : State) : (raiseError e s).refused = s.refused := rfl
@[simp] theorem raiseError_platform (e : ErrorCode) (s : State) : (raiseError e s).platform = s.platform := rfl
@[simp] theorem raiseError_host (e : ErrorCode) (s : State) : (raiseError e s).host = s.host := rfl
@[simp] theorem raiseError_draws (e : ErrorCode) (s : State) : (raiseError e s).draws = s.draws := rfl

@[simp] theorem endCommand_regs (s : State) : (endCommand s).regs = { s.regs with status := statusDone } := rfl
@[simp] theorem endCommand_scratch (s : State) : (endCommand s).scratch = s.scratch := rfl
@[simp] theorem endCommand_src (s : State) : (endCommand s).src = s.src := rfl
@[simp] theorem endCommand_dst (s : State) : (endCommand s).dst = s.dst := rfl
@[simp] theorem endCommand_faults (s : State) : (endCommand s).faults = s.faults := rfl
@[simp] theorem endCommand_refused (s : State) : (endCommand s).refused = s.refused := rfl
@[simp] theorem endCommand_platform (s : State) : (endCommand s).platform = s.platform := rfl
@[simp] theorem endCommand_host (s : State) : (endCommand s).host = s.host := rfl
@[simp] theorem endCommand_draws (s : State) : (endCommand s).draws = s.draws := rfl

@[simp] theorem setCursor_regs (c : Nat) (s : State) : (setCursor c s).regs = s.regs := rfl
@[simp] theorem setCursor_scratch (c : Nat) (s : State) : (setCursor c s).scratch = { s.scratch with cursor := c } := rfl
@[simp] theorem setCursor_src (c : Nat) (s : State) : (setCursor c s).src = s.src := rfl
@[simp] theorem setCursor_dst (c : Nat) (s : State) : (setCursor c s).dst = s.dst := rfl
@[simp] theorem setCursor_faults (c : Nat) (s : State) : (setCursor c s).faults = s.faults := rfl
@[simp] theorem setCursor_refused (c : Nat) (s : State) : (setCursor c s).refused = s.refused := rfl
@[simp] theorem setCursor_platform (c : Nat) (s : State) : (setCursor c s).platform = s.platform := rfl
@[simp] theorem setCursor_host (c : Nat) (s : State) : (setCursor c s).host = s.host := rfl
@[simp] theorem setCursor_draws (c : Nat) (s : State) : (setCursor c s).draws = s.draws := rfl

@[simp] theorem setPalette_regs (p : Palette) (s : State) : (setPalette p s).regs = s.regs := rfl
@[simp] theorem setPalette_scratch (p : Palette) (s : State) : (setPalette p s).scratch = { s.scratch with pal := p } := rfl
@[simp] theorem setPalette_src (p : Palette) (s : State) : (setPalette p s).src = s.src := rfl
@[simp] theorem setPalette_dst (p : Palette) (s : State) : (setPalette p s).dst = s.dst := rfl
@[simp] theorem setPalette_faults (p : Palette) (s : State) : (setPalette p s).faults = s.faults := rfl
@[simp] theorem setPalette_refused (p : Palette) (s : State) : (setPalette p s).refused = s.refused := rfl
@[simp] theorem setPalette_platform (p : Palette) (s : State) : (setPalette p s).platform = s.platform := rfl
@[simp] theorem setPalette_host (p : Palette) (s : State) : (setPalette p s).host = s.host := rfl
@[simp] theorem setPalette_draws (p : Palette) (s : State) : (setPalette p s).draws = s.draws := rfl

@[simp] theorem setVisit_regs (v : Visit) (s : State) : (setVisit v s).regs = s.regs := rfl
@[simp] theorem setVisit_scratch (v : Visit) (s : State) : (setVisit v s).scratch = { s.scratch with scan := { s.scratch.scan with xx := v.xx, yy := v.yy, x := v.x, y := v.y } } := rfl
@[simp] theorem setVisit_src (v : Visit) (s : State) : (setVisit v s).src = s.src := rfl
@[simp] theorem setVisit_dst (v : Visit) (s : State) : (setVisit v s).dst = s.dst := rfl
@[simp] theorem setVisit_faults (v : Visit) (s : State) : (setVisit v s).faults = s.faults := rfl
@[simp] theorem setVisit_refused (v : Visit) (s : State) : (setVisit v s).refused = s.refused := rfl
@[simp] theorem setVisit_platform (v : Visit) (s : State) : (setVisit v s).platform = s.platform := rfl
@[simp] theorem setVisit_host (v : Visit) (s : State) : (setVisit v s).host = s.host := rfl
@[simp] theorem setVisit_draws (v : Visit) (s : State) : (setVisit v s).draws = s.draws := rfl

@[simp] theorem setSubBlock_regs (b : SubBlock) (s : State) : (setSubBlock b s).regs = s.regs := rfl
@[simp] theorem setSubBlock_scratch (b : SubBlock) (s : State) : (setSubBlock b s).scratch = { s.scratch with scan := { s.scratch.scan with xx := b.xx, yy := b.yy, s := b.s } } := rfl
@[simp] theorem setSubBlock_src (b : SubBlock) (s : State) : (setSubBlock b s).src = s.src := rfl
@[simp] theorem setSubBlock_dst (b : SubBlock) (s : State) : (setSubBlock b s).dst = s.dst := rfl
@[simp] theorem setSubBlock_faults (b : SubBlock) (s : State) : (setSubBlock b s).faults = s.faults := rfl
@[simp] theorem setSubBlock_refused (b : SubBlock) (s : State) : (setSubBlock b s).refused = s.refused := rfl
@[simp] theorem setSubBlock_platform (b : SubBlock) (s : State) : (setSubBlock b s).platform = s.platform := rfl
@[simp] theorem setSubBlock_host (b : SubBlock) (s : State) : (setSubBlock b s).host = s.host := rfl
@[simp] theorem setSubBlock_draws (b : SubBlock) (s : State) : (setSubBlock b s).draws = s.draws := rfl

@[simp] theorem setTilePixel_regs (x y : Nat) (s : State) : (setTilePixel x y s).regs = s.regs := rfl
@[simp] theorem setTilePixel_scratch (x y : Nat) (s : State) : (setTilePixel x y s).scratch = { s.scratch with scan := { s.scratch.scan with x := x, y := y } } := rfl
@[simp] theorem setTilePixel_src (x y : Nat) (s : State) : (setTilePixel x y s).src = s.src := rfl
@[simp] theorem setTilePixel_dst (x y : Nat) (s : State) : (setTilePixel x y s).dst = s.dst := rfl
@[simp] theorem setTilePixel_faults (x y : Nat) (s : State) : (setTilePixel x y s).faults = s.faults := rfl
@[simp] theorem setTilePixel_refused (x y : Nat) (s : State) : (setTilePixel x y s).refused = s.refused := rfl
@[simp] theorem setTilePixel_platform (x y : Nat) (s : State) : (setTilePixel x y s).platform = s.platform := rfl
@[simp] theorem setTilePixel_host (x y : Nat) (s : State) : (setTilePixel x y s).host = s.host := rfl
@[simp] theorem setTilePixel_draws (x y : Nat) (s : State) : (setTilePixel x y s).draws = s.draws := rfl

@[simp] theorem releaseTiled_regs (s : State) : (releaseTiled s).regs = s.regs := rfl
@[simp] theorem releaseTiled_scratch (s : State) : (releaseTiled s).scratch = { s.scratch with scan := { freeScan s.draws with s := s.scratch.scan.s } } := rfl
@[simp] theorem releaseTiled_src (s : State) : (releaseTiled s).src = s.src := rfl
@[simp] theorem releaseTiled_dst (s : State) : (releaseTiled s).dst = s.dst := rfl
@[simp] theorem releaseTiled_faults (s : State) : (releaseTiled s).faults = s.faults := rfl
@[simp] theorem releaseTiled_refused (s : State) : (releaseTiled s).refused = s.refused := rfl
@[simp] theorem releaseTiled_platform (s : State) : (releaseTiled s).platform = s.platform := rfl
@[simp] theorem releaseTiled_host (s : State) : (releaseTiled s).host = s.host := rfl
@[simp] theorem releaseTiled_draws (s : State) : (releaseTiled s).draws = s.draws + 1 := rfl

@[simp] theorem releaseCmpr_regs (s : State) : (releaseCmpr s).regs = s.regs := rfl
@[simp] theorem releaseCmpr_scratch (s : State) : (releaseCmpr s).scratch = { s.scratch with pal := freePalette s.draws, scan := freeScan s.draws } := rfl
@[simp] theorem releaseCmpr_src (s : State) : (releaseCmpr s).src = s.src := rfl
@[simp] theorem releaseCmpr_dst (s : State) : (releaseCmpr s).dst = s.dst := rfl
@[simp] theorem releaseCmpr_faults (s : State) : (releaseCmpr s).faults = s.faults := rfl
@[simp] theorem releaseCmpr_refused (s : State) : (releaseCmpr s).refused = s.refused := rfl
@[simp] theorem releaseCmpr_platform (s : State) : (releaseCmpr s).platform = s.platform := rfl
@[simp] theorem releaseCmpr_host (s : State) : (releaseCmpr s).host = s.host := rfl
@[simp] theorem releaseCmpr_draws (s : State) : (releaseCmpr s).draws = s.draws + 1 := rfl

@[simp] theorem releaseAll_regs (s : State) : (releaseAll s).regs = s.regs := rfl
@[simp] theorem releaseAll_scratch (s : State) : (releaseAll s).scratch = { pal := freePalette s.draws, cursor := (Config.freeCursor s.draws).toNat, scan := freeScan s.draws } := rfl
@[simp] theorem releaseAll_src (s : State) : (releaseAll s).src = s.src := rfl
@[simp] theorem releaseAll_dst (s : State) : (releaseAll s).dst = s.dst := rfl
@[simp] theorem releaseAll_faults (s : State) : (releaseAll s).faults = s.faults := rfl
@[simp] theorem releaseAll_refused (s : State) : (releaseAll s).refused = s.refused := rfl
@[simp] theorem releaseAll_platform (s : State) : (releaseAll s).platform = s.platform := rfl
@[simp] theorem releaseAll_host (s : State) : (releaseAll s).host = s.host := rfl
@[simp] theorem releaseAll_draws (s : State) : (releaseAll s).draws = s.draws + 1 := rfl

@[simp] theorem afterTurn_regs (s : State) : s.afterTurn.regs = s.regs := rfl
@[simp] theorem afterTurn_scratch (s : State) : s.afterTurn.scratch = s.scratch := rfl
@[simp] theorem afterTurn_src (s : State) : s.afterTurn.src = s.src := rfl
@[simp] theorem afterTurn_dst (s : State) : s.afterTurn.dst = s.dst := rfl
@[simp] theorem afterTurn_faults (s : State) : s.afterTurn.faults = s.faults := rfl
@[simp] theorem afterTurn_refused (s : State) : s.afterTurn.refused = s.refused := rfl
@[simp] theorem afterTurn_platform (s : State) : s.afterTurn.platform = s.platform := rfl
@[simp] theorem afterTurn_host (s : State) : s.afterTurn.host = { s.host with turns := s.host.turns.tail } := rfl
@[simp] theorem afterTurn_draws (s : State) : s.afterTurn.draws = s.draws := rfl

@[simp] theorem afterOp_regs (s : State) : s.afterOp.regs = s.regs := rfl
@[simp] theorem afterOp_scratch (s : State) : s.afterOp.scratch = s.scratch := rfl
@[simp] theorem afterOp_src (s : State) : s.afterOp.src = s.src := rfl
@[simp] theorem afterOp_dst (s : State) : s.afterOp.dst = s.dst := rfl
@[simp] theorem afterOp_faults (s : State) : s.afterOp.faults = s.faults := rfl
@[simp] theorem afterOp_refused (s : State) : s.afterOp.refused = s.refused := rfl
@[simp] theorem afterOp_platform (s : State) : s.afterOp.platform = s.platform := rfl
@[simp] theorem afterOp_host (s : State) : s.afterOp.host = { s.host with ops := s.host.ops.tail, last := s.host.ops.head? } := rfl
@[simp] theorem afterOp_draws (s : State) : s.afterOp.draws = s.draws := rfl

/-! A byte write touches no field but the memories. -/

@[simp] theorem writeLoc_regs (s : State) (l : Loc) (b : Byte) : (s.writeLoc l b).regs = s.regs := by
  unfold State.writeLoc; split <;> rfl

@[simp] theorem writeLoc_scratch (s : State) (l : Loc) (b : Byte) : (s.writeLoc l b).scratch = s.scratch := by
  unfold State.writeLoc; split <;> rfl

@[simp] theorem writeLoc_faults (s : State) (l : Loc) (b : Byte) : (s.writeLoc l b).faults = s.faults := by
  unfold State.writeLoc; split <;> rfl

@[simp] theorem writeLoc_refused (s : State) (l : Loc) (b : Byte) : (s.writeLoc l b).refused = s.refused := by
  unfold State.writeLoc; split <;> rfl

@[simp] theorem writeLoc_platform (s : State) (l : Loc) (b : Byte) : (s.writeLoc l b).platform = s.platform := by
  unfold State.writeLoc; split <;> rfl

@[simp] theorem writeLoc_host (s : State) (l : Loc) (b : Byte) : (s.writeLoc l b).host = s.host := by
  unfold State.writeLoc; split <;> rfl

@[simp] theorem writeLoc_draws (s : State) (l : Loc) (b : Byte) : (s.writeLoc l b).draws = s.draws := by
  unfold State.writeLoc; split <;> rfl

end Sys2Proof.Machine
end

