-- ==== Sys2Proof/Laws/Memory.lean ====
section
/-! SUPPORT. The laws of memory: a read after a write, the canonical form, equal contents are equal data, and the same for the
two spaces of State. -/

namespace Sys2Proof.Machine

/-! One memory. -/

@[simp] theorem Memory.read_nil (a : Nat) : Memory.read [] a = unlistedByte := rfl

theorem Memory.read_cons (k : Nat) (v : Byte) (m : Memory) (a : Nat) :
    Memory.read ((k, v) :: m) a = if k = a then v else Memory.read m a := rfl

theorem Memory.read_erase (m : Memory) (a c : Nat) :
    (m.erase a).read c = if c = a then unlistedByte else m.read c := by
  induction m with
  | nil => simp [Memory.erase]
  | cons kv m ih =>
    obtain ⟨k, v⟩ := kv
    simp only [Memory.erase]
    grind [Memory.read_cons]

theorem Memory.read_insert (m : Memory) (a c : Nat) (b : Byte) :
    (m.insert a b).read c = if c = a then b else m.read c := by
  induction m with
  | nil => simp [Memory.insert, Memory.read_cons, eq_comm]
  | cons kv m ih =>
    obtain ⟨k, v⟩ := kv
    simp only [Memory.insert]
    grind [Memory.read_cons]

theorem Memory.read_write (m : Memory) (a c : Nat) (b : Byte) :
    (m.write a b).read c = if c = a then b else m.read c := by
  unfold Memory.write
  split_ifs <;> simp_all [Memory.read_erase, Memory.read_insert]

theorem Memory.mem_erase {m : Memory} {a : Nat} {c : Host.Cell} (h : c ∈ m.erase a) : c ∈ m ∧ c.1 ≠ a := by
  induction m with
  | nil => simp [Memory.erase] at h
  | cons kv m ih =>
    obtain ⟨k, v⟩ := kv
    simp only [Memory.erase] at h
    split_ifs at h with hk
    · exact ⟨.tail _ (ih h).1, (ih h).2⟩
    · rcases List.mem_cons.1 h with rfl | h
      · exact ⟨.head _, hk⟩
      · exact ⟨.tail _ (ih h).1, (ih h).2⟩

theorem Memory.mem_insert {m : Memory} {a : Nat} {b : Byte} {c : Host.Cell} (h : c ∈ m.insert a b) :
    c = (a, b) ∨ c ∈ m := by
  induction m with
  | nil => simpa [Memory.insert] using h
  | cons kv m ih =>
    obtain ⟨k, v⟩ := kv
    simp only [Memory.insert] at h
    split_ifs at h with h1 h2
    · exact List.mem_cons.1 h
    · exact (List.mem_cons.1 h).imp_right (.tail _)
    · rcases List.mem_cons.1 h with rfl | h
      · exact .inr (.head _)
      · exact (ih h).imp_right (.tail _)

theorem Memory.mem_write {m : Memory} {a : Nat} {b : Byte} {c : Host.Cell} (h : c ∈ m.write a b) :
    c = (a, b) ∨ c ∈ m := by
  unfold Memory.write at h
  split_ifs at h
  · exact .inr (Memory.mem_erase h).1
  · exact Memory.mem_insert h

theorem Memory.wf_nil : Memory.wf [] := ⟨.nil, fun _ h => nomatch h⟩

theorem Memory.wf_erase {m : Memory} (h : m.wf) (a : Nat) : (m.erase a).wf := by
  refine ⟨?_, fun c hc => h.2 c (Memory.mem_erase hc).1⟩
  induction m with
  | nil => exact .nil
  | cons kv m ih =>
    obtain ⟨k, v⟩ := kv
    have ht := ih ⟨(List.pairwise_cons.1 h.1).2, fun c hc => h.2 c (.tail _ hc)⟩
    simp only [Memory.erase]
    split_ifs
    · exact ht
    · exact List.pairwise_cons.2 ⟨fun c hc => (List.pairwise_cons.1 h.1).1 c (Memory.mem_erase hc).1, ht⟩

theorem Memory.wf_insert {m : Memory} (h : m.wf) (a : Nat) {b : Byte} (hb : b ≠ unlistedByte) : (m.insert a b).wf := by
  refine ⟨?_, fun c hc => ?_⟩
  · induction m with
    | nil => simp [Memory.insert]
    | cons kv m ih =>
      obtain ⟨k, v⟩ := kv
      obtain ⟨hk, hm⟩ := List.pairwise_cons.1 h.1
      have ht := ih ⟨hm, fun c hc => h.2 c (.tail _ hc)⟩
      simp only [Memory.insert]
      split_ifs with h1 h2
      · refine List.pairwise_cons.2 ⟨fun c hc => ?_, h.1⟩
        rcases List.mem_cons.1 hc with rfl | hc
        · exact h1
        · exact h1.trans (hk c hc)
      · exact List.pairwise_cons.2 ⟨fun c hc => h2 ▸ hk c hc, hm⟩
      · refine List.pairwise_cons.2 ⟨fun c hc => ?_, ht⟩
        rcases Memory.mem_insert hc with rfl | hc
        · simp only; omega
        · exact hk c hc
  · rcases Memory.mem_insert hc with rfl | hc
    · exact hb
    · exact h.2 c hc

/-- Every write keeps the canonical form. -/
theorem Memory.wf_write {m : Memory} (h : m.wf) (a : Nat) (b : Byte) : (m.write a b).wf := by
  unfold Memory.write
  split_ifs with hb
  · exact Memory.wf_erase h a
  · exact Memory.wf_insert h a hb

theorem Memory.read_of_forall_lt {m : Memory} {a : Nat} (h : ∀ c ∈ m, a < c.1) : m.read a = unlistedByte := by
  induction m with
  | nil => rfl
  | cons kv m ih =>
    obtain ⟨k, v⟩ := kv
    have hk : a < k := h _ (.head _)
    rw [Memory.read_cons, if_neg (by omega)]
    exact ih fun c hc => h c (.tail _ hc)

/-- Canonical memories with the same contents are equal data. -/
theorem Memory.ext_read {m n : Memory} (hm : m.wf) (hn : n.wf) (h : ∀ a, m.read a = n.read a) : m = n := by
  induction m generalizing n with
  | nil =>
    cases n with
    | nil => rfl
    | cons kv n =>
      exact absurd (by simpa [Memory.read] using (h kv.1).symm) (hn.2 kv (.head _))
  | cons kv m ih =>
    cases n with
    | nil => exact absurd (by simpa [Memory.read] using h kv.1) (hm.2 kv (.head _))
    | cons kw n =>
      obtain ⟨k, v⟩ := kv
      obtain ⟨k', v'⟩ := kw
      obtain ⟨hk, hm1⟩ := List.pairwise_cons.1 hm.1
      obtain ⟨hk', hn1⟩ := List.pairwise_cons.1 hn.1
      have hv := hm.2 _ (.head _)
      have hv' := hn.2 _ (.head _)
      have hkk : k = k' := by
        rcases Nat.lt_trichotomy k k' with hlt | heq | hlt
        · have h1 := h k
          have h2 : Memory.read ((k', v') :: n) k = unlistedByte := Memory.read_of_forall_lt fun c hc => by
            rcases List.mem_cons.1 hc with rfl | hc
            · exact hlt
            · exact hlt.trans (hk' c hc)
          rw [h2, Memory.read_cons, if_pos rfl] at h1
          exact absurd h1 hv
        · exact heq
        · have h1 := h k'
          have h2 : Memory.read ((k, v) :: m) k' = unlistedByte := Memory.read_of_forall_lt fun c hc => by
            rcases List.mem_cons.1 hc with rfl | hc
            · exact hlt
            · exact hlt.trans (hk c hc)
          rw [h2, Memory.read_cons, if_pos rfl] at h1
          exact absurd h1.symm hv'
      subst hkk
      have hvv : v = v' := by simpa [Memory.read_cons] using h k
      subst hvv
      have hmn : m = n := by
        refine ih ⟨hm1, fun c hc => hm.2 c (.tail _ hc)⟩ ⟨hn1, fun c hc => hn.2 c (.tail _ hc)⟩ fun a => ?_
        by_cases hak : a ≤ k
        · rw [Memory.read_of_forall_lt fun c hc => lt_of_le_of_lt hak (hk c hc),
            Memory.read_of_forall_lt fun c hc => lt_of_le_of_lt hak (hk' c hc)]
        · have := h a
          rwa [Memory.read_cons, Memory.read_cons, if_neg (by omega), if_neg (by omega)] at this
      rw [hmn]

/-! The two spaces. -/

theorem readLoc_writeLoc (s : State) (l c : Loc) (b : Byte) :
    (s.writeLoc l b).readLoc c = if c = l then b else s.readLoc c := by
  obtain ⟨l1, l2⟩ := l
  obtain ⟨c1, c2⟩ := c
  cases l1 <;> cases c1 <;> simp [State.writeLoc, State.readLoc, Memory.read_write]

theorem readLoc_congr {s t : State} (h1 : t.src = s.src) (h2 : t.dst = s.dst) (l : Loc) : t.readLoc l = s.readLoc l := by
  unfold State.readLoc; rw [h1, h2]

theorem dstLoc_inj (p : Platform) {a b : Nat} : dstLoc p a = dstLoc p b ↔ a = b := by
  unfold dstLoc; split <;> simp

theorem srcLoc_inj (p : Platform) {a b : Nat} : srcLoc p a = srcLoc p b ↔ a = b := by
  unfold srcLoc; split <;> simp

theorem srcLoc_add (p : Platform) (a k : Nat) : srcLoc p (a + k) = ((srcLoc p a).1, (srcLoc p a).2 + k) := by
  unfold srcLoc; split <;> simp [Nat.add_assoc]

theorem dstLoc_add (p : Platform) (a k : Nat) : dstLoc p (a + k) = ((dstLoc p a).1, (dstLoc p a).2 + k) := by
  unfold dstLoc; split <;> simp [Nat.add_assoc]

@[simp] theorem writeDst_eq (s : State) (a : Nat) (b : Byte) : s.writeDst a b = s.writeLoc (dstLoc s.platform a) b := rfl

@[simp] theorem writeSrc_eq (s : State) (a : Nat) (b : Byte) : s.writeSrc a b = s.writeLoc (srcLoc s.platform a) b := rfl

theorem memWf_writeLoc {s : State} (h : s.memWf) (l : Loc) (b : Byte) : (s.writeLoc l b).memWf := by
  unfold State.writeLoc State.memWf
  split
  · exact ⟨Memory.wf_write h.1 _ _, h.2⟩
  · exact ⟨h.1, Memory.wf_write h.2 _ _⟩

end Sys2Proof.Machine
end

