-- ==== Sys2Proof/Laws/Pixels.lean ====
section
/-! SUPPORT. What the pixel write can do, and `Progress`: what holds of a decode of state `s0` when the pixels of a list are done.
A decode is a run of pixel writes and changes of the internal state, so each keeps `Progress`. -/

namespace Sys2Proof.Machine

theorem pixelOffset_inj {w c r c' r' : Nat} (hc : c < w) (hc' : c' < w) {j j' : Nat} (hj : j < 4) (hj' : j' < 4)
    (h : pixelOffset w c r + j = pixelOffset w c' r' + j') : c = c' ∧ r = r' ∧ j = j' := by
  unfold pixelOffset at h
  have hn : r * w + c = r' * w + c' := by omega
  have hmod : c = c' := by
    have := congrArg (· % w) hn
    simpa [Nat.add_mod, Nat.mul_mod_left, Nat.mod_eq_of_lt hc, Nat.mod_eq_of_lt hc'] using this
  subst hmod
  have hw : 0 < w := by omega
  exact ⟨rfl, Nat.eq_of_mul_eq_mul_right hw (by omega), by omega⟩

theorem pixelOffset_lt {w h c r j : Nat} (hc : c < w) (hr : r < h) (hj : j < 4) :
    pixelOffset w c r + j < w * h * 4 := by
  unfold pixelOffset
  have : r * w + w ≤ h * w := by
    calc r * w + w = (r + 1) * w := by ring
      _ ≤ h * w := Nat.mul_le_mul_right _ hr
  rw [Nat.mul_comm w h]
  omega

/-! The pixel write. -/

section
variable (w c r : Nat) (p : Rgba) (s : State)

@[simp] theorem putPixel_regs : (putPixel w c r p s).regs = s.regs := by simp [putPixel]
@[simp] theorem putPixel_scratch : (putPixel w c r p s).scratch = s.scratch := by simp [putPixel]
@[simp] theorem putPixel_faults : (putPixel w c r p s).faults = s.faults := by simp [putPixel]
@[simp] theorem putPixel_refused : (putPixel w c r p s).refused = s.refused := by simp [putPixel]
@[simp] theorem putPixel_platform : (putPixel w c r p s).platform = s.platform := by simp [putPixel]
@[simp] theorem putPixel_host : (putPixel w c r p s).host = s.host := by simp [putPixel]
@[simp] theorem putPixel_draws : (putPixel w c r p s).draws = s.draws := by simp [putPixel]
end

/-- The pixel write changes its four bytes and no other. -/
theorem putPixel_readLoc (w c r : Nat) (p : Rgba) (s : State) (l : Loc) :
    (putPixel w c r p s).readLoc l =
      if l = dstLoc s.platform (s.regs.dstBase.toNat + pixelOffset w c r + 3) then p.a
      else if l = dstLoc s.platform (s.regs.dstBase.toNat + pixelOffset w c r + 2) then p.b
      else if l = dstLoc s.platform (s.regs.dstBase.toNat + pixelOffset w c r + 1) then p.g
      else if l = dstLoc s.platform (s.regs.dstBase.toNat + pixelOffset w c r) then p.r
      else s.readLoc l := by
  simp [putPixel, readLoc_writeLoc]

theorem putPixel_readLoc_other {w c r : Nat} {p : Rgba} {s : State} {l : Loc}
    (h : ∀ j < 4, l ≠ dstLoc s.platform (s.regs.dstBase.toNat + pixelOffset w c r + j)) :
    (putPixel w c r p s).readLoc l = s.readLoc l := by
  rw [putPixel_readLoc, if_neg (h 3 (by omega)), if_neg (h 2 (by omega)), if_neg (h 1 (by omega)),
    if_neg (by simpa using h 0 (by omega))]

theorem putPixel_readDst (w c r : Nat) (p : Rgba) (s : State) {j : Nat} (hj : j < 4) :
    (putPixel w c r p s).readDst (s.regs.dstBase.toNat + pixelOffset w c r + j) = p.byte j := by
  rw [State.readDst, putPixel_platform, putPixel_readLoc]
  simp only [dstLoc_inj]
  match j, hj with
  | 0, _ => simp [Rgba.byte]
  | 1, _ => simp [Rgba.byte]
  | 2, _ => simp [Rgba.byte]
  | 3, _ => simp [Rgba.byte]

theorem putPixel_memWf {s : State} (h : s.memWf) (w c r : Nat) (p : Rgba) : (putPixel w c r p s).memWf := by
  simp only [putPixel, writeDst_eq]
  exact memWf_writeLoc (memWf_writeLoc (memWf_writeLoc (memWf_writeLoc h _ _) _ _) _ _) _ _

/-- A byte write inside the spaces lists nothing outside them. -/
theorem memInSpaces_writeLoc {s : State} (h : s.memInSpaces) {l : Loc} (hl : InSpaces s.platform l) (b : Byte) :
    (s.writeLoc l b).memInSpaces := by
  obtain ⟨l1, l2⟩ := l
  unfold State.writeLoc State.memInSpaces
  cases l1 <;> simp only [Bool.false_eq_true, if_false, if_true]
  · exact ⟨h.1, fun c hc => (Memory.mem_write hc).elim (fun e => e ▸ hl) (h.2 c)⟩
  · exact ⟨fun c hc => (Memory.mem_write hc).elim (fun e => e ▸ hl) (h.1 c), h.2⟩

theorem putPixel_memInSpaces {s : State} (h : s.memInSpaces) {w c r : Nat} (p : Rgba)
    (hl : s.regs.dstBase.toNat + pixelOffset w c r + 3 < s.platform.dstSpaceBytes) :
    (putPixel w c r p s).memInSpaces := by
  simp only [putPixel, writeDst_eq]
  have hin : ∀ j < 4, InSpaces s.platform (dstLoc s.platform (s.regs.dstBase.toNat + pixelOffset w c r + j)) :=
    fun j hj => .inr ⟨_, by omega, rfl⟩
  have key : ∀ (u : State) (j : Nat) (b : Byte), j < 4 → u.platform = s.platform → u.memInSpaces →
      (u.writeLoc (dstLoc s.platform (s.regs.dstBase.toNat + pixelOffset w c r + j)) b).memInSpaces :=
    fun u j b hj hu hm => memInSpaces_writeLoc hm (hu ▸ hin j hj) b
  simp only [writeLoc_platform]
  exact key _ 3 _ (by omega) (by simp) (key _ 2 _ (by omega) (by simp) (key _ 1 _ (by omega) (by simp)
    (key _ 0 _ (by omega) rfl h)))

/-! The two buffers. -/

theorem inRange_eq_true {l st : Loc} {n : Nat} : l.inRange st n = true ↔ l.1 = st.1 ∧ st.2 ≤ l.2 ∧ l.2 < st.2 + n := by
  simp [Loc.inRange]

@[simp] theorem dstBufferBytes_le (s : State) : s.dstBufferBytes ≤ s.operands.dstLen := Nat.min_le_left _ _

theorem dstBufferBytes_eq {s : State} (h : s.operands.db + s.operands.dstLen ≤ s.platform.dstSpaceBytes) :
    s.dstBufferBytes = s.operands.dstLen := by
  unfold State.dstBufferBytes; omega

theorem srcBufferBytes_eq {s : State} (h : s.operands.sb + s.operands.sl ≤ s.platform.srcSpaceBytes) :
    s.srcBufferBytes = s.operands.sl := by
  unfold State.srcBufferBytes; omega

/-- The bytes of the destination buffer are those of DST from DST_BASE on (R52). -/
theorem inDstBuffer_iff {s : State} {l : Loc} :
    s.inDstBuffer l = true ↔ ∃ k < s.dstBufferBytes, l = dstLoc s.platform (s.operands.db + k) := by
  unfold State.inDstBuffer
  rw [inRange_eq_true]
  constructor
  · rintro ⟨h1, h2, h3⟩
    refine ⟨l.2 - (dstLoc s.platform s.operands.db).2, by omega, ?_⟩
    rw [dstLoc_add]
    exact Prod.ext h1 (by simp only; omega)
  · rintro ⟨k, hk, rfl⟩
    rw [dstLoc_add]
    exact ⟨rfl, by simp only; omega, by simp only; omega⟩

theorem inSrcBuffer_iff {s : State} {l : Loc} :
    s.inSrcBuffer l = true ↔ ∃ k < s.srcBufferBytes, l = srcLoc s.platform (s.operands.sb + k) := by
  unfold State.inSrcBuffer
  rw [inRange_eq_true]
  constructor
  · rintro ⟨h1, h2, h3⟩
    refine ⟨l.2 - (srcLoc s.platform s.operands.sb).2, by omega, ?_⟩
    rw [srcLoc_add]
    exact Prod.ext h1 (by simp only; omega)
  · rintro ⟨k, hk, rfl⟩
    rw [srcLoc_add]
    exact ⟨rfl, by simp only; omega, by simp only; omega⟩

/-- The two buffers alias exactly when some byte lies in both (R257). -/
theorem buffersAlias_iff {s : State} :
    s.buffersAlias = true ↔ ∃ l, s.inSrcBuffer l = true ∧ s.inDstBuffer l = true := by
  unfold State.inSrcBuffer State.inDstBuffer State.buffersAlias
  simp only [inRange_eq_true, Bool.and_eq_true, decide_eq_true_eq, beq_iff_eq]
  constructor
  · rintro ⟨h1, ⟨h2, h3⟩, h4, h5⟩
    refine ⟨((srcLoc s.platform s.operands.sb).1,
      max (srcLoc s.platform s.operands.sb).2 (dstLoc s.platform s.operands.db).2), ⟨rfl, ?_, ?_⟩, h1, ?_, ?_⟩ <;>
      simp only <;> omega
  · rintro ⟨l, ⟨h1, h2, h3⟩, h4, h5, h6⟩
    exact ⟨h1.symm.trans h4, ⟨by omega, by omega⟩, by omega, by omega⟩

/-- Buffers that do not alias have no byte in common. -/
theorem inSrcBuffer_of_inDstBuffer {s : State} (h : s.buffersAlias = false) {l : Loc} (hl : s.inDstBuffer l = true) :
    s.inSrcBuffer l = false := by
  by_contra hc
  rw [buffersAlias_iff.2 ⟨l, (Bool.not_eq_false _).mp hc, hl⟩] at h
  cases h

theorem buffersAlias_separate {s : State} (h : s.platform.plan = .separate) : s.buffersAlias = false := by
  simp [State.buffersAlias, srcLoc, dstLoc, h]

/-- An empty destination buffer has no byte, so nothing is shared (R107). -/
theorem inDstBuffer_empty {s : State} (h : s.operands.dstLen = 0) (l : Loc) : s.inDstBuffer l = false := by
  have := dstBufferBytes_le s
  by_contra hd
  rw [Bool.not_eq_false, inDstBuffer_iff] at hd
  obtain ⟨k, hk, -⟩ := hd
  omega

theorem buffersAlias_empty {s : State} (h : s.operands.dstLen = 0) : s.buffersAlias = false := by
  by_contra ha
  rw [Bool.not_eq_false, buffersAlias_iff] at ha
  obtain ⟨l, -, hd⟩ := ha
  simp [inDstBuffer_empty h] at hd

/-- No byte of the source buffer is one of the destination buffer. -/
def State.SourceApart (s : State) : Prop :=
  ∀ k < s.operands.sl, s.inDstBuffer (srcLoc s.platform (s.operands.sb + k)) = false

/-- Buffers that do not alias are apart, when the source buffer lies in SRC. -/
theorem sourceApart {s : State} (ha : s.buffersAlias = false) (hs : s.operands.sb + s.operands.sl ≤ s.platform.srcSpaceBytes) :
    s.SourceApart := by
  intro k hk
  by_contra hd
  rw [Bool.not_eq_false] at hd
  have := buffersAlias_iff.2 ⟨_, inSrcBuffer_iff.2 ⟨k, by rwa [srcBufferBytes_eq hs], rfl⟩, hd⟩
  simp [ha] at this

theorem Accepts.sourceApart {i : Instr} {s : State} (h : Accepts i s) : s.SourceApart :=
  Machine.sourceApart h.noAlias h.source

/-! Progress of a decode. -/

/-- State `s` is state `s0` with the pixels `done` written with the values `val`, and perhaps the internal state changed. -/
structure Progress (s0 : State) (val : Nat → Nat → Rgba) (done : List (Nat × Nat)) (s : State) : Prop where
  regs : s.regs = s0.regs
  faults : s.faults = s0.faults
  refused : s.refused = s0.refused
  platform : s.platform = s0.platform
  host : s.host = s0.host
  draws : s.draws = s0.draws
  outside : ∀ l, s0.inDstBuffer l = false → s.readLoc l = s0.readLoc l
  written : ∀ q ∈ done, q.1 < s0.operands.w ∧ ∀ j < 4,
    s.readDst (s0.regs.dstBase.toNat + pixelOffset s0.operands.w q.1 q.2 + j) = (val q.1 q.2).byte j
  memWf : s0.memWf → s.memWf
  memInSpaces : s0.memInSpaces → s.memInSpaces

theorem Progress.start (s : State) (val : Nat → Nat → Rgba) : Progress s val [] s :=
  { regs := rfl, faults := rfl, refused := rfl, platform := rfl, host := rfl, draws := rfl, outside := fun _ _ => rfl,
    written := fun _ h => absurd h (by simp), memWf := id, memInSpaces := id }

/-- A change of the internal state alone keeps progress. -/
theorem Progress.setScratch {s0 s : State} {val : Nat → Nat → Rgba} {done : List (Nat × Nat)} (h : Progress s0 val done s)
    (c : Scratch) : Progress s0 val done (s.setScratch c) :=
  ⟨h.regs, h.faults, h.refused, h.platform, h.host, h.draws,
    fun l hl => (readLoc_congr rfl rfl l).trans (h.outside l hl), fun q hq => ⟨(h.written q hq).1, fun j hj => by
      have := (h.written q hq).2 j hj
      exact this⟩, h.memWf, h.memInSpaces⟩

/-- The source buffer reads as at the start, when the buffers are apart (R51, R59). -/
theorem Progress.srcByte {s0 s : State} {val : Nat → Nat → Rgba} {done : List (Nat × Nat)} (h : Progress s0 val done s)
    (ha : s0.SourceApart) {k : Nat} (hk : k < s0.operands.sl) : s.srcByte k = s0.srcByte k := by
  unfold State.srcByte State.readSrc
  rw [h.platform, h.regs]
  exact h.outside _ (ha k hk)

/-- Writing one more pixel of the image. -/
theorem Progress.putPixel {s0 s : State} {val : Nat → Nat → Rgba} {done : List (Nat × Nat)} (h : Progress s0 val done s)
    {c r : Nat} (hc : c < s0.operands.w) (hr : r < s0.operands.h)
    (hd : s0.operands.db + s0.operands.dstLen ≤ s0.platform.dstSpaceBytes) :
    Progress s0 val ((c, r) :: done) (putPixel s0.operands.w c r (val c r) s) := by
  have hlt : ∀ j < 4, pixelOffset s0.operands.w c r + j < s0.operands.dstLen := fun j hj => pixelOffset_lt hc hr hj
  have hdb : s0.regs.dstBase.toNat = s0.operands.db := rfl
  refine ⟨by simp [h.regs], by simp [h.faults], by simp [h.refused], by simp [h.platform], by simp [h.host],
    by simp [h.draws], fun l hl => ?_, fun q hq => ?_, fun hw => putPixel_memWf (h.memWf hw) _ _ _ _, fun hm => ?_⟩
  · rw [putPixel_readLoc_other, h.outside l hl]
    rintro j hj rfl
    rw [h.platform, h.regs, hdb, Nat.add_assoc] at hl
    rw [inDstBuffer_iff.2 ⟨_, by rw [dstBufferBytes_eq hd]; exact hlt j hj, rfl⟩] at hl
    exact absurd hl (by simp)
  · by_cases hqq : q = (c, r)
    · subst hqq
      refine ⟨hc, fun j hj => ?_⟩
      have := putPixel_readDst s0.operands.w c r (val c r) s hj
      rwa [h.regs] at this
    · have hq' : q ∈ done := (List.mem_cons.1 hq).resolve_left hqq
      obtain ⟨hqc, hqv⟩ := h.written q hq'
      refine ⟨hqc, fun j hj => ?_⟩
      have hv := hqv j hj
      unfold State.readDst at hv ⊢
      rw [putPixel_platform, putPixel_readLoc_other, hv]
      intro j' hj' he
      rw [dstLoc_inj, h.regs] at he
      have he' : pixelOffset s0.operands.w q.1 q.2 + j = pixelOffset s0.operands.w c r + j' := by omega
      obtain ⟨e1, e2, -⟩ := pixelOffset_inj hqc hc hj hj' he'
      exact hqq (Prod.ext e1 e2)
  · refine putPixel_memInSpaces (h.memInSpaces hm) _ ?_
    rw [h.regs, h.platform, hdb]
    have := hlt 3 (by omega)
    omega

end Sys2Proof.Machine
end

