-- ==== Sys2Proof/Laws/Scan.lean ====
section
/-! SUPPORT. The address mapper: which visits a scan makes, and where in the source each visit's sample stands (R115 to R117, R141
to R143). -/

namespace Sys2Proof.Machine

/-- The loop values of `for v in [0, d*n) step d`. -/
theorem stepsTo_mul {d : Nat} (hd : 0 < d) (n : Nat) : stepsTo (d * n) d = (List.range n).map (· * d) := by
  unfold stepsTo
  congr 2
  rw [show d * n + d - 1 = d - 1 + d * n by omega, Nat.add_mul_div_left _ _ hd, Nat.div_eq_of_lt (by omega)]
  omega

theorem mem_stepsTo {d : Nat} (hd : 0 < d) {n v : Nat} : v ∈ stepsTo (d * n) d ↔ ∃ k < n, v = k * d := by
  simp [stepsTo_mul hd, eq_comm]

/-- The visits of a scan whose tile divides the image (R115). -/
theorem mem_tileScan {tw th : Nat} (htw : 0 < tw) (hth : 0 < th) {a b : Nat} {v : Visit} :
    v ∈ tileScan tw th (tw * a) (th * b) ↔ ∃ kx < a, ∃ ky < b, v.xx = kx * tw ∧ v.yy = ky * th ∧ v.x < tw ∧ v.y < th := by
  unfold tileScan tileVisits
  simp only [List.mem_flatMap, List.mem_map, mem_stepsTo htw, mem_stepsTo hth, List.mem_range]
  constructor
  · rintro ⟨_, ⟨ky, hy, rfl⟩, _, ⟨kx, hx, rfl⟩, y, hyy, x, hxx, rfl⟩
    exact ⟨kx, hx, ky, hy, rfl, rfl, hxx, hyy⟩
  · rintro ⟨kx, hx, ky, hy, h1, h2, h3, h4⟩
    obtain ⟨xx, yy, x, y⟩ := v
    exact ⟨yy, ⟨ky, hy, h2⟩, xx, ⟨kx, hx, h1⟩, y, h4, x, h3, rfl⟩

theorem mem_subBlockScan {a b : Nat} {v : SubBlock} :
    v ∈ subBlockScan (8 * a) (8 * b) ↔ ∃ kx < a, ∃ ky < b, v.xx = kx * 8 ∧ v.yy = ky * 8 ∧ v.s < 4 := by
  unfold subBlockScan
  simp only [List.mem_flatMap, List.mem_map, mem_stepsTo (show 0 < 8 by omega), List.mem_range]
  constructor
  · rintro ⟨_, ⟨ky, hy, rfl⟩, _, ⟨kx, hx, rfl⟩, s, hs, rfl⟩
    exact ⟨kx, hx, ky, hy, rfl, rfl, hs⟩
  · rintro ⟨kx, hx, ky, hy, h1, h2, h3⟩
    obtain ⟨xx, yy, s⟩ := v
    exact ⟨yy, ⟨ky, hy, h2⟩, xx, ⟨kx, hx, h1⟩, s, h3, rfl⟩

/-- A visit's pixel is inside the image. -/
theorem tileScan_inside {tw th : Nat} (htw : 0 < tw) (hth : 0 < th) {a b : Nat} {v : Visit}
    (h : v ∈ tileScan tw th (tw * a) (th * b)) : v.xx + v.x < tw * a ∧ v.yy + v.y < th * b := by
  obtain ⟨kx, hx, ky, hy, h1, h2, h3, h4⟩ := (mem_tileScan htw hth).1 h
  rw [h1, h2]
  constructor
  · calc kx * tw + v.x < kx * tw + tw := by omega
      _ = tw * (kx + 1) := by ring
      _ ≤ tw * a := Nat.mul_le_mul_left _ hx
  · calc ky * th + v.y < ky * th + th := by omega
      _ = th * (ky + 1) := by ring
      _ ≤ th * b := Nat.mul_le_mul_left _ hy

/-- Every pixel of the image is visited. -/
theorem tileScan_covers {tw th : Nat} (htw : 0 < tw) (hth : 0 < th) {a b c r : Nat} (hc : c < tw * a) (hr : r < th * b) :
    (c, r) ∈ (tileScan tw th (tw * a) (th * b)).map Visit.pixel := by
  refine List.mem_map.2 ⟨⟨c / tw * tw, r / th * th, c % tw, r % th⟩, (mem_tileScan htw hth).2 ?_, ?_⟩
  · exact ⟨c / tw, (Nat.div_lt_iff_lt_mul htw).2 (by rwa [Nat.mul_comm] at hc), r / th,
      (Nat.div_lt_iff_lt_mul hth).2 (by rwa [Nat.mul_comm] at hr), rfl, rfl, Nat.mod_lt _ htw, Nat.mod_lt _ hth⟩
  · simp [Visit.pixel, Nat.div_add_mod']

/-! The running cursor meets the closed form (R116, R117). -/

/-- The cursor after the visits `l`, from `c`, where a visit at column `x` moves it by `next x`. -/
def cursorAfter (next : Nat → Nat → Nat) (c : Nat) (l : List Visit) : Nat := l.foldl (fun c v => next v.x c) c

/-- At each visit of `l`, from cursor `c` on, the cursor stands at `off` of the visit. -/
def CursorAt (next : Nat → Nat → Nat) (off : Visit → Nat) : Nat → List Visit → Prop
  | _, [] => True
  | c, v :: l => c = off v ∧ CursorAt next off (next v.x c) l

section
variable {next : Nat → Nat → Nat} {off : Visit → Nat}

theorem cursorAfter_append (c : Nat) (l m : List Visit) :
    cursorAfter next c (l ++ m) = cursorAfter next (cursorAfter next c l) m := by
  simp [cursorAfter]

theorem cursorAt_append (c : Nat) (l m : List Visit) :
    CursorAt next off c (l ++ m) ↔ CursorAt next off c l ∧ CursorAt next off (cursorAfter next c l) m := by
  induction l generalizing c with
  | nil => simp [CursorAt, cursorAfter]
  | cons v l ih => simp [CursorAt, ih, cursorAfter, and_assoc]

/-- A loop whose body moves the cursor by `d` and meets `off` meets it throughout. -/
theorem cursorAt_flatMap {f : Nat → List Visit} {d : Nat} (n c : Nat)
    (h : ∀ k < n, CursorAt next off (c + d * k) (f k) ∧ cursorAfter next (c + d * k) (f k) = c + d * (k + 1)) :
    CursorAt next off c ((List.range n).flatMap f) ∧ cursorAfter next c ((List.range n).flatMap f) = c + d * n := by
  induction n with
  | zero => simp [CursorAt, cursorAfter]
  | succ n ih =>
    obtain ⟨h1, h2⟩ := ih fun k hk => h k (by omega)
    obtain ⟨h3, h4⟩ := h n (by omega)
    rw [List.range_succ, List.flatMap_append, cursorAt_append, cursorAfter_append, h2]
    simpa using ⟨⟨h1, h3⟩, h4⟩

/-- The running cursor of a whole scan meets `off` if it does on each tile, a tile being 32 bytes (R84). -/
theorem cursorAt_tileScan {tw th : Nat} (htw : 0 < tw) (hth : 0 < th) (a b : Nat)
    (tile : ∀ kx ky, CursorAt next off (32 * (ky * a + kx)) (tileVisits tw th (kx * tw) (ky * th)) ∧
      cursorAfter next (32 * (ky * a + kx)) (tileVisits tw th (kx * tw) (ky * th)) = 32 * (ky * a + kx) + 32) :
    CursorAt next off 0 (tileScan tw th (tw * a) (th * b)) ∧
      cursorAfter next 0 (tileScan tw th (tw * a) (th * b)) = 32 * a * b := by
  unfold tileScan
  rw [stepsTo_mul hth, List.flatMap_map]
  have := cursorAt_flatMap (next := next) (off := off) (d := 32 * a) (f := fun ky => (stepsTo (tw * a) tw).flatMap fun xx =>
      tileVisits tw th xx (ky * th)) b 0 ?_
  · simpa using this
  · intro ky hky
    rw [stepsTo_mul htw, List.flatMap_map]
    have hrow := cursorAt_flatMap (next := next) (off := off) (d := 32) (f := fun kx =>
      tileVisits tw th (kx * tw) (ky * th)) a (32 * (ky * a)) ?_
    · rw [show 0 + 32 * a * ky = 32 * (ky * a) by ring, show 0 + 32 * a * (ky + 1) = 32 * (ky * a) + 32 * a by ring]
      exact hrow
    · intro kx hkx
      have := tile kx ky
      rw [show 32 * (ky * a) + 32 * kx = 32 * (ky * a + kx) by ring,
        show 32 * (ky * a) + 32 * (kx + 1) = 32 * (ky * a + kx) + 32 by ring]
      exact this
end

/-- The source offset of a visit, tile by tile (R117): `a` tiles in a row. -/
def visitOffset (tw th b a : Nat) (v : Visit) : Nat :=
  32 * (v.yy / th * a + v.xx / tw) + (v.y * tw + v.x) * b / 8

/-- The offset of a visit is that of its pixel. -/
theorem visitOffset_eq {tw th b : Nat} (htw : 0 < tw) (hth : 0 < th) {a n : Nat} {v : Visit}
    (h : v ∈ tileScan tw th (tw * a) (th * n)) :
    visitOffset tw th b a v = sampleOffset tw th b (tw * a) (v.xx + v.x) (v.yy + v.y) := by
  obtain ⟨kx, -, ky, -, h1, h2, h3, h4⟩ := (mem_tileScan htw hth).1 h
  have e1 : ∀ {k t x : Nat}, 0 < t → x < t → (k * t + x) / t = k := fun {k t x} ht hx => by
    rw [Nat.mul_comm, Nat.mul_add_div ht, Nat.div_eq_of_lt hx, Nat.add_zero]
  have e2 : ∀ {k t x : Nat}, x < t → (k * t + x) % t = x := fun {k t x} hx => by
    rw [Nat.mul_comm, Nat.mul_add_mod, Nat.mod_eq_of_lt hx]
  unfold visitOffset sampleOffset
  rw [h1, h2, e1 htw h3, e1 hth h4, e2 h3, e2 h4, Nat.mul_div_cancel _ htw, Nat.mul_div_cancel _ hth,
    Nat.mul_div_cancel_left _ htw]

end Sys2Proof.Machine
end

