-- ==== Sys2Proof/Laws/Tiled.lean ====
section
/-! SUPPORT. Everything the tiled driver can do (R180): with the checks passed, it writes each pixel of the image with the value of
the closed form, leaves the cursor at the required length, and touches nothing else but the scan counters. -/

namespace Sys2Proof.Machine

/-- A sample is a value of the `n` source bytes at the cursor and a move of the cursor. -/
structure SampleLaw (sample : Sample) (next : Nat → Nat → Nat) (n : Nat) (val : (Nat → Byte) → Nat → Nat → Rgba) : Prop where
  eq : ∀ x s, sample x s = (val s.srcByte s.scratch.cursor x, next x s.scratch.cursor)
  local_ : ∀ f g c x, (∀ k < n, f (c + k) = g (c + k)) → val f c x = val g c x

theorem sampleI8_law : SampleLaw sampleI8 (fun _ c => c + 1) 1 (fun f c _ => pixelI8 (f c)) :=
  ⟨fun _ _ => rfl, fun f g c x h => by have := h 0 (by omega); simp_all⟩

theorem sampleI4_law : SampleLaw sampleI4 (fun x c => if x % 2 = 0 then c else c + 1) 1
    (fun f c x => pixelI4 (nibbleI4 (f c) x)) :=
  ⟨fun _ _ => rfl, fun f g c x h => by have := h 0 (by omega); simp_all⟩

theorem sampleIA4_law : SampleLaw sampleIA4 (fun _ c => c + 1) 1 (fun f c _ => pixelIA4 (f c)) :=
  ⟨fun _ _ => rfl, fun f g c x h => by have := h 0 (by omega); simp_all⟩

theorem sampleIA8_law : SampleLaw sampleIA8 (fun _ c => c + 2) 2 (fun f c _ => pixelIA8 (f c) (f (c + 1))) :=
  ⟨fun _ _ => rfl, fun f g c x h => by
    have h0 := h 0 (by omega); have h1 := h 1 (by omega); simp only [Nat.add_zero] at h0; simp only [h0, h1]⟩

/-- The counters that a tiled decode does not use stay (R35, R38). -/
structure TiledKept (s0 s : State) : Prop where
  pal : s.scratch.pal = s0.scratch.pal
  sub : s.scratch.scan.s = s0.scratch.scan.s

section
variable {sample : Sample} {next : Nat → Nat → Nat} {n : Nat} {val : (Nat → Byte) → Nat → Nat → Rgba}
  {s0 : State} {V : Nat → Nat → Rgba}

/-- One visit: the sample at the cursor is placed at the visit's pixel, and the cursor moves. -/
theorem visitTiled_progress (hs : SampleLaw sample next n val) (ha : s0.SourceApart)
    (hd : s0.operands.db + s0.operands.dstLen ≤ s0.platform.dstSpaceBytes) {v : Visit} {done : List (Nat × Nat)} {s : State}
    (hp : Progress s0 V done s) (hk : TiledKept s0 s) (hx : v.xx + v.x < s0.operands.w) (hy : v.yy + v.y < s0.operands.h)
    (hlen : s.scratch.cursor + n ≤ s0.operands.sl)
    (hV : val s0.srcByte s.scratch.cursor v.x = V (v.xx + v.x) (v.yy + v.y)) :
    Progress s0 V (v.pixel :: done) (visitTiled sample s0.operands.w s v) ∧
      TiledKept s0 (visitTiled sample s0.operands.w s v) ∧
      (visitTiled sample s0.operands.w s v).scratch.cursor = next v.x s.scratch.cursor := by
  have hp1 : Progress s0 V done (setVisit v s) := hp.setScratch _
  have htaken : sample v.x (setVisit v s) = (V (v.xx + v.x) (v.yy + v.y), next v.x s.scratch.cursor) := by
    rw [hs.eq]
    simp only [setVisit_scratch]
    rw [← hV, hs.local_ _ s0.srcByte _ _ fun k hk => hp1.srcByte ha (by omega)]
  have hform : visitTiled sample s0.operands.w s v =
      putPixel s0.operands.w (v.xx + v.x) (v.yy + v.y) (V (v.xx + v.x) (v.yy + v.y))
        (setCursor (next v.x s.scratch.cursor) (setVisit v s)) := by
    unfold visitTiled
    simp only [setVisit_scratch, htaken]
  rw [hform]
  refine ⟨Progress.putPixel (hp1.setScratch _) hx hy hd, ⟨?_, ?_⟩, ?_⟩ <;> simp [hk.pal, hk.sub]

/-- The whole fold. -/
theorem foldl_visitTiled_progress {off : Visit → Nat} (hs : SampleLaw sample next n val) (ha : s0.SourceApart)
    (hd : s0.operands.db + s0.operands.dstLen ≤ s0.platform.dstSpaceBytes) :
    ∀ (l : List Visit) (done : List (Nat × Nat)) (s : State), Progress s0 V done s → TiledKept s0 s →
      CursorAt next off s.scratch.cursor l →
      (∀ v ∈ l, v.xx + v.x < s0.operands.w ∧ v.yy + v.y < s0.operands.h ∧ off v + n ≤ s0.operands.sl ∧
        val s0.srcByte (off v) v.x = V (v.xx + v.x) (v.yy + v.y)) →
      Progress s0 V ((l.map Visit.pixel).reverse ++ done) (l.foldl (visitTiled sample s0.operands.w) s) ∧
        TiledKept s0 (l.foldl (visitTiled sample s0.operands.w) s) ∧
        (l.foldl (visitTiled sample s0.operands.w) s).scratch.cursor = cursorAfter next s.scratch.cursor l
  | [], done, s, hp, hk, _, _ => ⟨hp, hk, rfl⟩
  | v :: l, done, s, hp, hk, hc, hv => by
    obtain ⟨hcv, hcl⟩ := hc
    obtain ⟨h1, h2, h3, h4⟩ := hv v (.head _)
    obtain ⟨p1, k1, c1⟩ := visitTiled_progress hs ha hd hp hk h1 h2 (by omega) (by rw [hcv]; exact h4)
    have := foldl_visitTiled_progress hs ha hd l _ _ p1 k1 (by rw [c1]; exact hcl) fun u hu => hv u (.tail _ hu)
    simpa [cursorAfter, c1] using this

/-- A whole tiled decode from the facts about one tile. -/
theorem decodeTiled_progress {tw th b : Nat} (htw : 0 < tw) (hth : 0 < th) (hs : SampleLaw sample next n val) (ha : s0.SourceApart)
    (hd : s0.operands.db + s0.operands.dstLen ≤ s0.platform.dstSpaceBytes)
    (hw : s0.operands.w % tw = 0) (hh : s0.operands.h % th = 0)
    (hlen : 32 * (s0.operands.w / tw) * (s0.operands.h / th) ≤ s0.operands.sl)
    (htile : ∀ y < th, ∀ x < tw, (y * tw + x) * b / 8 + n ≤ 32)
    (hcur : ∀ a kx ky, CursorAt next (visitOffset tw th b a) (32 * (ky * a + kx)) (tileVisits tw th (kx * tw) (ky * th)) ∧
      cursorAfter next (32 * (ky * a + kx)) (tileVisits tw th (kx * tw) (ky * th)) = 32 * (ky * a + kx) + 32)
    (hV : ∀ kx ky x y, x < tw → y < th → val s0.srcByte (sampleOffset tw th b s0.operands.w (kx * tw + x) (ky * th + y)) x =
      V (kx * tw + x) (ky * th + y)) :
    let t := decodeTiled tw th sample s0.operands s0
    Progress s0 V ((tileScan tw th s0.operands.w s0.operands.h).map Visit.pixel).reverse t ∧ TiledKept s0 t ∧
      t.scratch.cursor = 32 * (s0.operands.w / tw) * (s0.operands.h / th) := by
  obtain ⟨a, ha'⟩ := Nat.dvd_of_mod_eq_zero hw
  obtain ⟨m, hm⟩ := Nat.dvd_of_mod_eq_zero hh
  have hwa : s0.operands.w / tw = a := by rw [ha', Nat.mul_div_cancel_left _ htw]
  have hhm : s0.operands.h / th = m := by rw [hm, Nat.mul_div_cancel_left _ hth]
  obtain ⟨c1, c2⟩ := cursorAt_tileScan (off := visitOffset tw th b a) htw hth a m (hcur a)
  have := foldl_visitTiled_progress (off := visitOffset tw th b a) hs ha hd (tileScan tw th s0.operands.w s0.operands.h) []
    (setCursor 0 s0) ((Progress.start s0 V).setScratch _) ⟨rfl, rfl⟩ (by rw [ha', hm]; exact c1) ?_
  · obtain ⟨p, k, c⟩ := this
    refine ⟨by simpa [decodeTiled] using p, k, ?_⟩
    rw [hwa, hhm, ← c2]
    rw [decodeTiled, c, ha', hm]
    rfl
  · intro v hv
    rw [ha', hm] at hv
    obtain ⟨i1, i2⟩ := tileScan_inside htw hth hv
    refine ⟨by omega, by omega, ?_, ?_⟩
    · obtain ⟨kx, hkx, ky, hky, e1, e2, hx, hy⟩ := (mem_tileScan htw hth).1 hv
      have h1 := htile v.y hy v.x hx
      rw [hwa, hhm] at hlen
      have h2 : 32 * (ky * a + kx) + 32 ≤ 32 * a * m := by
        calc 32 * (ky * a + kx) + 32 = 32 * (ky * a + (kx + 1)) := by ring
          _ ≤ 32 * (ky * a + a) := by omega
          _ = 32 * a * (ky + 1) := by ring
          _ ≤ 32 * a * m := Nat.mul_le_mul_left _ hky
      unfold visitOffset
      rw [e1, e2, Nat.mul_div_cancel _ htw, Nat.mul_div_cancel _ hth]
      omega
    · rw [visitOffset_eq htw hth hv, ← ha']
      obtain ⟨kx, -, ky, -, e1, e2, hx, hy⟩ := (mem_tileScan htw hth).1 hv
      rw [e1, e2]
      exact hV kx ky v.x v.y hx hy
end

/-! The four formats. -/

theorem range_four : List.range 4 = [0, 1, 2, 3] := rfl

theorem range_eight : List.range 8 = [0, 1, 2, 3, 4, 5, 6, 7] := rfl

theorem tile_cursor_8x4 (a kx ky : Nat) :
    CursorAt (fun _ c => c + 1) (visitOffset 8 4 8 a) (32 * (ky * a + kx)) (tileVisits 8 4 (kx * 8) (ky * 4)) ∧
      cursorAfter (fun _ c => c + 1) (32 * (ky * a + kx)) (tileVisits 8 4 (kx * 8) (ky * 4)) = 32 * (ky * a + kx) + 32 := by
  simp [tileVisits, range_four, range_eight, CursorAt, cursorAfter, visitOffset]

theorem tile_cursor_4x4 (a kx ky : Nat) :
    CursorAt (fun _ c => c + 2) (visitOffset 4 4 16 a) (32 * (ky * a + kx)) (tileVisits 4 4 (kx * 4) (ky * 4)) ∧
      cursorAfter (fun _ c => c + 2) (32 * (ky * a + kx)) (tileVisits 4 4 (kx * 4) (ky * 4)) = 32 * (ky * a + kx) + 32 := by
  simp [tileVisits, range_four, CursorAt, cursorAfter, visitOffset]

theorem tile_cursor_8x8 (a kx ky : Nat) :
    CursorAt (fun x c => if x % 2 = 0 then c else c + 1) (visitOffset 8 8 4 a) (32 * (ky * a + kx))
        (tileVisits 8 8 (kx * 8) (ky * 8)) ∧
      cursorAfter (fun x c => if x % 2 = 0 then c else c + 1) (32 * (ky * a + kx)) (tileVisits 8 8 (kx * 8) (ky * 8)) =
        32 * (ky * a + kx) + 32 := by
  simp [tileVisits, range_eight, CursorAt, cursorAfter, visitOffset]

/-- `req` counted in tiles of 32 bytes (R84). -/
theorem requiredLength_tiles {i : Instr} {w h : Nat} (hw : w % tileWidth i = 0) (hh : h % tileHeight i = 0) :
    requiredLength i w h = 32 * (w / tileWidth i) * (h / tileHeight i) := by
  have key : ∀ tw th k : Nat, 0 < tw → 0 < th → w % tw = 0 → h % th = 0 → tw * th = k →
      w * h = k * ((w / tw) * (h / th)) := by
    intro tw th k h1 h2 e1 e2 hk
    obtain ⟨a, rfl⟩ := Nat.dvd_of_mod_eq_zero e1
    obtain ⟨b, rfl⟩ := Nat.dvd_of_mod_eq_zero e2
    rw [Nat.mul_div_cancel_left _ h1, Nat.mul_div_cancel_left _ h2, ← hk]
    ring
  cases i <;> simp only [tileWidth, tileHeight, requiredLength] at hw hh ⊢
  · rw [key 8 8 64 (by omega) (by omega) hw hh rfl, Nat.mul_assoc]; omega
  · rw [key 8 4 32 (by omega) (by omega) hw hh rfl, Nat.mul_assoc]
  · rw [key 8 4 32 (by omega) (by omega) hw hh rfl, Nat.mul_assoc]
  · rw [Nat.mul_assoc, key 4 4 16 (by omega) (by omega) hw hh rfl, Nat.mul_assoc]; omega
  · rw [key 8 8 64 (by omega) (by omega) hw hh rfl, Nat.mul_assoc]; omega

theorem nibbleI4_tile (b : Byte) (k x : Nat) : nibbleI4 b (k * 8 + x) = nibbleI4 b x := by
  have : (k * 8 + x) % 2 = x % 2 := by omega
  simp only [nibbleI4, this]

/-- What a whole decode of command `i` does to `s`, before the internal state is released. -/
structure TiledResult (i : Instr) (s t : State) : Prop where
  progress : Progress s (imagePixel i s.operands.w s.srcByte)
    ((tileScan (tileWidth i) (tileHeight i) s.operands.w s.operands.h).map Visit.pixel).reverse t
  kept : TiledKept s t
  cursor : t.scratch.cursor = requiredLength i s.operands.w s.operands.h

theorem decodeTiled_I8 {s : State} (h : Accepts .decI8 s) :
    TiledResult .decI8 s (decodeTiled 8 4 sampleI8 s.operands s) := by
  have hr := requiredLength_tiles h.width h.height
  obtain ⟨p, k, c⟩ := decodeTiled_progress (tw := 8) (th := 4) (b := 8) (V := imagePixel .decI8 s.operands.w s.srcByte) (by omega) (by omega)
    sampleI8_law h.sourceApart h.destination h.width h.height (hr ▸ h.length) (by omega) tile_cursor_8x4 (fun _ _ _ _ _ _ => rfl)
  exact ⟨p, k, c.trans hr.symm⟩

theorem decodeTiled_IA4 {s : State} (h : Accepts .decIA4 s) :
    TiledResult .decIA4 s (decodeTiled 8 4 sampleIA4 s.operands s) := by
  have hr := requiredLength_tiles h.width h.height
  obtain ⟨p, k, c⟩ := decodeTiled_progress (tw := 8) (th := 4) (b := 8) (V := imagePixel .decIA4 s.operands.w s.srcByte) (by omega) (by omega)
    sampleIA4_law h.sourceApart h.destination h.width h.height (hr ▸ h.length) (by omega) tile_cursor_8x4 (fun _ _ _ _ _ _ => rfl)
  exact ⟨p, k, c.trans hr.symm⟩

theorem decodeTiled_IA8 {s : State} (h : Accepts .decIA8 s) :
    TiledResult .decIA8 s (decodeTiled 4 4 sampleIA8 s.operands s) := by
  have hr := requiredLength_tiles h.width h.height
  obtain ⟨p, k, c⟩ := decodeTiled_progress (tw := 4) (th := 4) (b := 16) (V := imagePixel .decIA8 s.operands.w s.srcByte) (by omega) (by omega)
    sampleIA8_law h.sourceApart h.destination h.width h.height (hr ▸ h.length) (by omega) tile_cursor_4x4 (fun _ _ _ _ _ _ => rfl)
  exact ⟨p, k, c.trans hr.symm⟩

theorem decodeTiled_I4 {s : State} (h : Accepts .decI4 s) :
    TiledResult .decI4 s (decodeTiled 8 8 sampleI4 s.operands s) := by
  have hr := requiredLength_tiles h.width h.height
  obtain ⟨p, k, c⟩ := decodeTiled_progress (tw := 8) (th := 8) (b := 4) (V := imagePixel .decI4 s.operands.w s.srcByte) (by omega) (by omega)
    sampleI4_law h.sourceApart h.destination h.width h.height (hr ▸ h.length) (by omega) tile_cursor_8x8
    (fun kx ky x y _ _ => congrArg pixelI4 (nibbleI4_tile _ kx x).symm)
  exact ⟨p, k, c.trans hr.symm⟩

end Sys2Proof.Machine
end

