-- ==== Sys2Proof/Laws/Cmpr.lean ====
section
/-! SUPPORT. Everything the block-compressed decoder can do (R140): with the checks passed, it writes each pixel of the image with
the value of the closed form, and touches nothing else but PAL and the scan counters. -/

namespace Sys2Proof.Machine

section
variable {s0 : State} {V : Nat → Nat → Rgba}

/-- A loop whose body keeps `I` and adds the pixels `g a` at each value `a` of the loop. -/
theorem foldl_progress {α : Type} {I : State → Prop} {f : State → α → State} {g : α → List (Nat × Nat)} :
    ∀ (l : List α) (_ : ∀ a ∈ l, ∀ done s, Progress s0 V done s → I s →
        ∃ done', Progress s0 V done' (f s a) ∧ I (f s a) ∧ done ⊆ done' ∧ g a ⊆ done')
      (done : List (Nat × Nat)) (s : State), Progress s0 V done s → I s →
      ∃ done', Progress s0 V done' (l.foldl f s) ∧ I (l.foldl f s) ∧ done ⊆ done' ∧ ∀ a ∈ l, g a ⊆ done'
  | [], _, done, s, hp, hi => ⟨done, hp, hi, fun _ h => h, fun _ h => absurd h (by simp)⟩
  | a :: l, hstep, done, s, hp, hi => by
    obtain ⟨d1, p1, i1, s1, g1⟩ := hstep a (.head _) done s hp hi
    obtain ⟨d2, p2, i2, s2, g2⟩ := foldl_progress l (fun b hb => hstep b (.tail _ hb)) d1 _ p1 i1
    refine ⟨d2, p2, i2, fun _ h => s2 (s1 h), fun b hb => ?_⟩
    rcases List.mem_cons.1 hb with rfl | hb
    · exact fun _ h => s2 (g1 h)
    · exact g2 b hb

/-- The internal state inside sub-block `b` with palette `p` and cursor `c`. -/
structure InSubBlock (b : SubBlock) (p : Palette) (c : Nat) (s : State) : Prop where
  pal : s.scratch.pal = p
  cursor : s.scratch.cursor = c
  xx : s.scratch.scan.xx = b.xx
  yy : s.scratch.scan.yy = b.yy
  sub : s.scratch.scan.s = b.s

/-- The absolute position of pixel `(px, py)` of a sub-block (R142). -/
def SubBlock.pixel (b : SubBlock) (py px : Nat) : Nat × Nat := (b.xx + subBlockCol b.s + px, b.yy + subBlockRow b.s + py)

theorem placePixel_progress (hd : s0.operands.db + s0.operands.dstLen ≤ s0.platform.dstSpaceBytes) {b : SubBlock} {p : Palette}
    {c : Nat} {q : Byte} {py px : Nat} {done : List (Nat × Nat)} {s : State} (hp : Progress s0 V done s) (hi : InSubBlock b p c s)
    (hc : (b.pixel py px).1 < s0.operands.w) (hr : (b.pixel py px).2 < s0.operands.h)
    (hV : p.entry (paletteIndex q px) = V (b.pixel py px).1 (b.pixel py px).2) :
    Progress s0 V (b.pixel py px :: done) (placePixel s0.operands.w q py s px) ∧
      InSubBlock b p c (placePixel s0.operands.w q py s px) := by
  have hform : placePixel s0.operands.w q py s px =
      putPixel s0.operands.w (b.pixel py px).1 (b.pixel py px).2 (V (b.pixel py px).1 (b.pixel py px).2)
        (setTilePixel (subBlockCol b.s + px) (subBlockRow b.s + py) s) := by
    rw [← hV, ← hi.pal]
    simp only [placePixel, hi.xx, hi.yy, hi.sub, setTilePixel_scratch, SubBlock.pixel]
  rw [hform]
  exact ⟨(hp.setScratch _).putPixel hc hr hd, by constructor <;> simp [hi.pal, hi.cursor, hi.xx, hi.yy, hi.sub]⟩

/-- One row of a sub-block. -/
theorem placeRow_progress (ha : s0.SourceApart)
    (hd : s0.operands.db + s0.operands.dstLen ≤ s0.platform.dstSpaceBytes) {b : SubBlock} {p : Palette} {c o py : Nat}
    {done : List (Nat × Nat)} {s : State} (hp : Progress s0 V done s) (hi : InSubBlock b p c s) (ho : o + 4 + py < s0.operands.sl)
    (hc : ∀ px < 4, (b.pixel py px).1 < s0.operands.w) (hr : ∀ px < 4, (b.pixel py px).2 < s0.operands.h)
    (hV : ∀ px < 4, p.entry (paletteIndex (s0.srcByte (o + 4 + py)) px) = V (b.pixel py px).1 (b.pixel py px).2) :
    ∃ done', Progress s0 V done' (placeRow s0.operands.w o s py) ∧ InSubBlock b p c (placeRow s0.operands.w o s py) ∧
      done ⊆ done' ∧ (List.range 4).map (b.pixel py) ⊆ done' := by
  unfold placeRow
  rw [hp.srcByte ha ho]
  obtain ⟨d, h1, h2, h3, h4⟩ := foldl_progress (s0 := s0) (V := V) (I := InSubBlock b p c)
    (f := placePixel s0.operands.w (s0.srcByte (o + 4 + py)) py) (g := fun px => [b.pixel py px]) (List.range 4)
    (fun px hpx done s hp hi => by
      rw [List.mem_range] at hpx
      obtain ⟨q1, q2⟩ := placePixel_progress hd hp hi (hc px hpx) (hr px hpx) (hV px hpx)
      exact ⟨_, q1, q2, List.subset_cons_self _ _, by simp⟩) done s hp hi
  refine ⟨d, h1, h2, h3, fun x hx => ?_⟩
  obtain ⟨px, hpx, rfl⟩ := List.mem_map.1 hx
  exact h4 px hpx (by simp)

/-- The 16 pixels of a sub-block. -/
def SubBlock.pixels (b : SubBlock) : List (Nat × Nat) :=
  (List.range 4).flatMap fun py => (List.range 4).map (b.pixel py)

/-- One sub-block. -/
theorem decodeSubBlock_progress (ha : s0.SourceApart)
    (hd : s0.operands.db + s0.operands.dstLen ≤ s0.platform.dstSpaceBytes) {b : SubBlock} {done : List (Nat × Nat)} {s : State}
    (hp : Progress s0 V done s) (hc0 : s.scratch.cursor = s0.scratch.cursor)
    (ho : subBlockOffset s0.operands.w b + 8 ≤ s0.operands.sl)
    (hc : ∀ py < 4, ∀ px < 4, (b.pixel py px).1 < s0.operands.w) (hr : ∀ py < 4, ∀ px < 4, (b.pixel py px).2 < s0.operands.h)
    (hV : ∀ py < 4, ∀ px < 4, (buildPalette (s0.srcU16 (subBlockOffset s0.operands.w b))
        (s0.srcU16 (subBlockOffset s0.operands.w b + 2))).entry
        (paletteIndex (s0.srcByte (subBlockOffset s0.operands.w b + 4 + py)) px) = V (b.pixel py px).1 (b.pixel py px).2) :
    ∃ done', Progress s0 V done' (decodeSubBlock s0.operands.w s b) ∧
      (decodeSubBlock s0.operands.w s b).scratch.cursor = s0.scratch.cursor ∧ done ⊆ done' ∧ b.pixels ⊆ done' := by
  have hp1 : Progress s0 V done (setSubBlock b s) := hp.setScratch _
  have hu : ∀ k, k + 2 ≤ s0.operands.sl → (setSubBlock b s).srcU16 k = s0.srcU16 k := fun k hk => by
    unfold State.srcU16; rw [hp1.srcByte ha (by omega), hp1.srcByte ha (by omega)]
  unfold decodeSubBlock
  simp only [hu _ (show subBlockOffset s0.operands.w b + 2 ≤ _ by omega),
    hu _ (show subBlockOffset s0.operands.w b + 2 + 2 ≤ _ by omega)]
  obtain ⟨d, h1, h2, h3, h4⟩ := foldl_progress (s0 := s0) (V := V)
    (I := InSubBlock b (buildPalette (s0.srcU16 (subBlockOffset s0.operands.w b))
        (s0.srcU16 (subBlockOffset s0.operands.w b + 2))) s0.scratch.cursor)
    (f := placeRow s0.operands.w (subBlockOffset s0.operands.w b)) (g := fun py => (List.range 4).map (b.pixel py)) (List.range 4)
    (fun py hpy done s hp hi => by
      rw [List.mem_range] at hpy
      exact placeRow_progress ha hd hp hi (by omega) (hc py hpy) (hr py hpy) (hV py hpy)) done
    (setPalette (buildPalette (s0.srcU16 (subBlockOffset s0.operands.w b)) (s0.srcU16 (subBlockOffset s0.operands.w b + 2)))
      (setSubBlock b s)) (hp1.setScratch _) (by constructor <;> simp [hc0])
  refine ⟨d, h1, h2.cursor, h3, fun x hx => ?_⟩
  obtain ⟨py, hpy, hx⟩ := List.mem_flatMap.1 hx
  exact h4 py hpy hx
end

/-! The sub-block mapper (R142). -/

theorem subBlockCol_eq {s : Nat} (h : s < 4) : subBlockCol s = s % 2 * 4 := by
  match s, h with
  | 0, _ => rfl
  | 1, _ => rfl
  | 2, _ => rfl
  | 3, _ => rfl

theorem subBlockRow_eq {s : Nat} (h : s < 4) : subBlockRow s = s / 2 * 4 := by
  match s, h with
  | 0, _ => rfl
  | 1, _ => rfl
  | 2, _ => rfl
  | 3, _ => rfl

/-- The sub-block of a pixel is the one the scan reaches it in. -/
theorem subBlockOf_pixel {kx ky s py px : Nat} (hs : s < 4) (hy : py < 4) (hx : px < 4) :
    subBlockOf ((⟨kx * 8, ky * 8, s⟩ : SubBlock).pixel py px).1 ((⟨kx * 8, ky * 8, s⟩ : SubBlock).pixel py px).2 =
      ⟨kx * 8, ky * 8, s⟩ := by
  simp only [SubBlock.pixel, subBlockCol_eq hs, subBlockRow_eq hs, subBlockOf, SubBlock.mk.injEq]
  omega

/-- A whole CMPR decode. -/
theorem decodeCMPR_progress {s : State} (h : Accepts .decCMPR s) :
    ∃ done, Progress s (imagePixel .decCMPR s.operands.w s.srcByte) done
        ((subBlockScan s.operands.w s.operands.h).foldl (decodeSubBlock s.operands.w) s) ∧
      ((subBlockScan s.operands.w s.operands.h).foldl (decodeSubBlock s.operands.w) s).scratch.cursor = s.scratch.cursor ∧
      ∀ c r, c < s.operands.w → r < s.operands.h → (c, r) ∈ done := by
  obtain ⟨a, ha⟩ := Nat.dvd_of_mod_eq_zero h.width
  obtain ⟨m, hm⟩ := Nat.dvd_of_mod_eq_zero h.height
  simp only [tileWidth, tileHeight] at ha hm
  have hr := requiredLength_tiles h.width h.height
  have hlen := h.length
  rw [hr] at hlen
  simp only [tileWidth, tileHeight] at hlen
  have hwa : s.operands.w / 8 = a := by omega
  have hhm : s.operands.h / 8 = m := by omega
  obtain ⟨d, h1, h2, -, h4⟩ := foldl_progress (s0 := s) (V := imagePixel .decCMPR s.operands.w s.srcByte)
    (I := fun t => t.scratch.cursor = s.scratch.cursor) (f := decodeSubBlock s.operands.w) (g := SubBlock.pixels)
    (subBlockScan s.operands.w s.operands.h) (fun b hb done t hp hi => by
      rw [ha, hm] at hb
      obtain ⟨kx, hkx, ky, hky, e1, e2, hs⟩ := mem_subBlockScan.1 hb
      obtain ⟨bx, bY, bs⟩ := b
      simp only at e1 e2 hs
      subst e1 e2
      refine decodeSubBlock_progress h.sourceApart h.destination hp hi ?_ ?_ ?_ ?_
      · have h2 : 32 * (ky * a + kx) + 32 ≤ 32 * a * m := by
          calc 32 * (ky * a + kx) + 32 = 32 * (ky * a + (kx + 1)) := by ring
            _ ≤ 32 * (ky * a + a) := by omega
            _ = 32 * a * (ky + 1) := by ring
            _ ≤ 32 * a * m := Nat.mul_le_mul_left _ hky
        rw [hwa, hhm] at hlen
        unfold subBlockOffset macroblockNumber
        rw [hwa]
        simp only [Nat.mul_div_cancel _ (show 0 < 8 by omega)]
        omega
      · intro py hpy px hpx
        simp only [SubBlock.pixel, subBlockCol_eq hs]; omega
      · intro py hpy px hpx
        simp only [SubBlock.pixel, subBlockRow_eq hs]; omega
      · intro py hpy px hpx
        simp only [imagePixel, subBlockOf_pixel hs hpy hpx]
        have e1 : ((⟨kx * 8, ky * 8, bs⟩ : SubBlock).pixel py px).2 % 4 = py := by
          simp only [SubBlock.pixel, subBlockRow_eq hs]; omega
        have e2 : ((⟨kx * 8, ky * 8, bs⟩ : SubBlock).pixel py px).1 % 4 = px := by
          simp only [SubBlock.pixel, subBlockCol_eq hs]; omega
        rw [e1, e2]
        rfl) [] s (Progress.start s _) rfl
  refine ⟨d, h1, h2, fun c r hc hr' => ?_⟩
  refine h4 ⟨c / 8 * 8, r / 8 * 8, 2 * (r % 8 / 4) + c % 8 / 4⟩ ?_ ?_
  · rw [ha, hm]
    exact mem_subBlockScan.2 ⟨c / 8, by omega, r / 8, by omega, rfl, rfl, by simp only; omega⟩
  · refine List.mem_flatMap.2 ⟨r % 4, by simp; omega, List.mem_map.2 ⟨c % 4, by simp; omega, ?_⟩⟩
    have hs : 2 * (r % 8 / 4) + c % 8 / 4 < 4 := by omega
    simp only [SubBlock.pixel, subBlockCol_eq hs, subBlockRow_eq hs, Prod.mk.injEq]
    omega

end Sys2Proof.Machine
end

