-- ==== Sys2Proof/Laws/Command.lean ====
section
/-! SUPPORT. What a command can do: the checks as arithmetic, the three ways Perform ends, and one lemma for every decode. -/

namespace Sys2Proof.Machine

/-! The checks (R102, R226). -/

theorem checkOperands_dimension {i : Instr} {o : Operands} {p : Platform}
    (h : o.w % tileWidth i ≠ 0 ∨ o.h % tileHeight i ≠ 0) : checkOperands i o p = some .dimension := by
  simp only [checkOperands, if_pos h]

theorem checkOperands_truncated {i : Instr} {o : Operands} {p : Platform}
    (hw : o.w % tileWidth i = 0) (hh : o.h % tileHeight i = 0) (hl : o.sl < requiredLength i o.w o.h) :
    checkOperands i o p = some .truncated := by
  simp [checkOperands, hw, hh, hl]

theorem checkOperands_range {i : Instr} {o : Operands} {p : Platform}
    (hw : o.w % tileWidth i = 0) (hh : o.h % tileHeight i = 0) (hl : requiredLength i o.w o.h ≤ o.sl)
    (hr : p.srcSpaceBytes < o.sb + o.sl ∨ p.dstSpaceBytes < o.db + o.w * o.h * 4) : checkOperands i o p = some .range := by
  simp only [checkOperands, hw, hh, Nat.not_lt.2 hl, Operands.dstLen, ne_eq, not_true_eq_false, or_self, if_false]
  exact if_pos hr

theorem accepts_iff {i : Instr} {s : State} :
    Accepts i s ↔ checkOperands i s.operands s.platform = none ∧ s.buffersAlias = false := by
  constructor
  · rintro ⟨h1, h2, h3, h4, h5, h6⟩
    refine ⟨?_, h6⟩
    simp only [checkOperands, h1, h2, Nat.not_lt.2 h3, Nat.not_lt.2 h4, Operands.dstLen, Nat.not_lt.2 h5, ne_eq,
      not_true_eq_false, or_self, if_false]
  · rintro ⟨h, h6⟩
    simp only [checkOperands] at h
    by_cases h1 : s.operands.w % tileWidth i ≠ 0 ∨ s.operands.h % tileHeight i ≠ 0
    · rw [if_pos h1] at h; cases h
    rw [if_neg h1] at h
    by_cases h2 : s.operands.sl < requiredLength i s.operands.w s.operands.h
    · rw [if_pos h2] at h; cases h
    rw [if_neg h2] at h
    by_cases h3 : s.platform.srcSpaceBytes < s.operands.sb + s.operands.sl ∨
        s.platform.dstSpaceBytes < s.operands.db + s.operands.dstLen
    · rw [if_pos h3] at h; cases h
    rw [not_or, not_not, not_not] at h1
    rw [not_or, Nat.not_lt, Nat.not_lt] at h3
    exact ⟨h1.1, h1.2, Nat.le_of_not_lt h2, h3.1, h3.2, h6⟩

/-! Perform. -/

/-- The three ways Perform ends. -/
theorem performCommand_cases (i : Instr) (body : Operands → State → State) (s : State) :
    (s.buffersAlias = true ∧ performCommand i body s = .next s.refuse) ∨
    (s.buffersAlias = false ∧ ∃ e, checkOperands i s.operands s.platform = some e ∧
      performCommand i body s = .next (raiseError e s)) ∨
    (Accepts i s ∧ performCommand i body s = .next (endCommand (body s.operands s))) := by
  unfold performCommand unlessAliased
  rw [accepts_iff]
  cases checkOperands i s.operands s.platform <;> cases s.buffersAlias <;> simp

theorem performCommand_error {i : Instr} {body : Operands → State → State} {s : State} {e : ErrorCode}
    (ha : s.buffersAlias = false) (h : checkOperands i s.operands s.platform = some e) :
    performCommand i body s = .next (raiseError e s) := by
  simp [performCommand, unlessAliased, ha, h]

theorem performCommand_alias {i : Instr} {body : Operands → State → State} {s : State} (ha : s.buffersAlias = true) :
    performCommand i body s = .next s.refuse := by
  simp [performCommand, unlessAliased, ha]

theorem performCommand_accepts {i : Instr} {body : Operands → State → State} {s : State} (h : Accepts i s) :
    performCommand i body s = .next (endCommand (body s.operands s)) := by
  simp [performCommand, unlessAliased, accepts_iff.1 h]

/-- Every command is Perform with its decode (R104). -/
theorem exec_eq (i : Instr) (s : State) : exec i s = performCommand i (decodeImage i) s := by
  cases i <;> rfl

/-! Every decode. -/

/-- What `Decode[i]` leaves: the image written, everything outside the destination buffer as it was, the internal state inside its
ranges. -/
structure DecodeResult (i : Instr) (s t : State) : Prop where
  regs : t.regs = s.regs
  surroundings : SameSurroundings s t
  outside : OnlyDestinationWritten s t
  image : ∀ c r j, c < s.operands.w → r < s.operands.h → j < 4 →
    imageByte s t c r j = (imagePixel i s.operands.w s.srcByte c r).byte j
  memWf : s.memWf → t.memWf
  memInSpaces : s.memInSpaces → t.memInSpaces
  tiled : i ≠ .decCMPR → t.scratch.pal = s.scratch.pal ∧ t.scratch.scan.s = s.scratch.scan.s ∧
    t.scratch.cursor = requiredLength i s.operands.w s.operands.h
  compressed : i = .decCMPR → t.scratch.cursor = s.scratch.cursor
  inRange : s.scratch.InRange → t.scratch.InRange

theorem freeScan_inRange (n : Nat) : (freeScan n).xx < 2 ^ 32 ∧ (freeScan n).yy < 2 ^ 32 ∧ (freeScan n).s < 4 ∧
    (freeScan n).x < 8 ∧ (freeScan n).y < 8 :=
  ⟨(Config.freeOriginCol n).isLt, (Config.freeOriginRow n).isLt, (Config.freeSubBlock n).isLt, (Config.freeTileCol n).isLt,
    (Config.freeTileRow n).isLt⟩

/-- Progress over all pixels, with the scratch released. -/
theorem Progress.result {i : Instr} {s u t : State} {done : List (Nat × Nat)}
    (hp : Progress s (imagePixel i s.operands.w s.srcByte) done u)
    (hall : ∀ c r, c < s.operands.w → r < s.operands.h → (c, r) ∈ done)
    (ht : t = ((u.setScratch t.scratch).nextDraw))
    (tiled : i ≠ .decCMPR → t.scratch.pal = s.scratch.pal ∧ t.scratch.scan.s = s.scratch.scan.s ∧
      t.scratch.cursor = requiredLength i s.operands.w s.operands.h)
    (compressed : i = .decCMPR → t.scratch.cursor = s.scratch.cursor)
    (inRange : s.scratch.InRange → t.scratch.InRange) : DecodeResult i s t := by
  have hsrc : t.src = u.src := by rw [ht]; rfl
  have hdst : t.dst = u.dst := by rw [ht]; rfl
  have hpl : t.platform = u.platform := by rw [ht]; rfl
  refine ⟨by rw [ht]; exact hp.regs, ⟨by rw [ht]; exact hp.faults, by rw [ht]; exact hp.refused, hpl.trans hp.platform,
    by rw [ht]; exact hp.host⟩, fun l hl => (readLoc_congr hsrc hdst l).trans (hp.outside l hl), fun c r j hc hr hj => ?_,
    fun h => ?_, fun h => ?_, tiled, compressed, inRange⟩
  · have := (hp.written (c, r) (hall c r hc hr)).2 j hj
    rw [← this]
    unfold imageByte State.readDst
    rw [hpl, readLoc_congr hsrc hdst]
    rfl
  · have := hp.memWf h
    unfold State.memWf at this ⊢
    rwa [hsrc, hdst]
  · have := hp.memInSpaces h
    unfold State.memInSpaces at this ⊢
    rwa [hsrc, hdst, hpl]

theorem Accepts.requiredLength_lt {i : Instr} {s : State} (h : Accepts i s) :
    requiredLength i s.operands.w s.operands.h < 2 ^ 32 :=
  lt_of_le_of_lt h.length s.regs.srcLen.isLt

theorem TiledResult.result {i : Instr} {s u : State} (h : Accepts i s) (hi : i ≠ .decCMPR) (hr : TiledResult i s u) :
    DecodeResult i s (releaseTiled u) := by
  refine Progress.result hr.progress (fun c r hc hr' => ?_) rfl
    (fun _ => ⟨by simp [hr.kept.pal], by simp [hr.kept.sub], by simp [hr.cursor]⟩) (fun e => absurd e hi) (fun hs => ?_)
  · obtain ⟨a, ha⟩ := Nat.dvd_of_mod_eq_zero h.width
    obtain ⟨m, hm⟩ := Nat.dvd_of_mod_eq_zero h.height
    rw [List.mem_reverse, ha, hm]
    exact tileScan_covers (by cases i <;> decide) (by cases i <;> decide) (ha ▸ hc) (hm ▸ hr')
  · obtain ⟨f1, f2, -, f4, f5⟩ := freeScan_inRange u.draws
    exact ⟨by simpa [hr.cursor] using h.requiredLength_lt, by simpa using f1, by simpa using f2,
      by simpa [hr.kept.sub] using hs.s, by simpa using f4, by simpa using f5⟩

/-- Every decode whose checks passed. -/
theorem decodeImage_result {i : Instr} {s : State} (h : Accepts i s) : DecodeResult i s (decodeImage i s.operands s) := by
  cases i with
  | decI4 => exact (decodeTiled_I4 h).result h (by decide)
  | decI8 => exact (decodeTiled_I8 h).result h (by decide)
  | decIA4 => exact (decodeTiled_IA4 h).result h (by decide)
  | decIA8 => exact (decodeTiled_IA8 h).result h (by decide)
  | decCMPR =>
    obtain ⟨done, hp, hc, hall⟩ := decodeCMPR_progress h
    refine Progress.result hp hall rfl (fun e => absurd rfl e) (fun _ => by simpa [decodeImage, decodeCMPR] using hc)
      (fun hs => ?_)
    obtain ⟨f1, f2, f3, f4, f5⟩ :=
      freeScan_inRange ((subBlockScan s.operands.w s.operands.h).foldl (decodeSubBlock s.operands.w) s).draws
    exact ⟨by simpa [decodeImage, decodeCMPR, hc] using hs.cursor, by simpa [decodeImage, decodeCMPR] using f1,
      by simpa [decodeImage, decodeCMPR] using f2, by simpa [decodeImage, decodeCMPR] using f3,
      by simpa [decodeImage, decodeCMPR] using f4, by simpa [decodeImage, decodeCMPR] using f5⟩

end Sys2Proof.Machine
end

