-- ==== Sys2Proof/Laws/HostSteps.lean ====
section
/-! SUPPORT. What the host's operations can do: which fields each touches, that hazards and refusals are only added, that the
memories keep their form, and what a reset leaves of an abandoned command's buffer. -/

namespace Sys2Proof.Machine

theorem Hazards.subset_refl (f : Hazards) : f.subset f := ⟨id, id, id⟩

theorem Hazards.subset_trans {f g h : Hazards} (a : f.subset g) (b : g.subset h) : f.subset h :=
  ⟨fun x => b.1 (a.1 x), fun x => b.2.1 (a.2.1 x), fun x => b.2.2 (a.2.2 x)⟩

/-- What every host operation keeps: the platform, and everything recorded. -/
structure Recorded (s t : State) : Prop where
  platform : t.platform = s.platform
  faults : s.faults.subset t.faults
  refused : s.refused = true → t.refused = true

theorem Recorded.refl (s : State) : Recorded s s := ⟨rfl, Hazards.subset_refl _, id⟩

theorem Recorded.trans {s t u : State} (a : Recorded s t) (b : Recorded t u) : Recorded s u :=
  ⟨b.platform.trans a.platform, Hazards.subset_trans a.faults b.faults, fun h => b.refused (a.refused h)⟩

theorem Recorded.of_eq {s t : State} (h1 : t.platform = s.platform) (h2 : t.faults = s.faults) (h3 : t.refused = s.refused) :
    Recorded s t := ⟨h1, h2 ▸ Hazards.subset_refl _, fun h => h3.trans h⟩

theorem recorded_recordHazards (s : State) (f : Hazards) : Recorded s (s.recordHazards f) :=
  ⟨rfl, ⟨fun h => by simp [h], fun h => by simp [h], fun h => by simp [h]⟩, id⟩

theorem recorded_refuse (s : State) : Recorded s s.refuse := ⟨rfl, Hazards.subset_refl _, fun _ => rfl⟩

/-! The register block. -/

/-- The access that names a register (R23, R33). -/
theorem accessedRegister_eq_some {p : Platform} {addr bytes : Nat} {r : Register} :
    accessedRegister p addr bytes = some r ↔ bytes = 4 ∧ addr = p.regBase + r.offset := by
  have key : ∀ o, registerAt o = some r ↔ o = r.offset := fun o => by
    cases r <;> simp only [registerAt, Register.offset] <;> split_ifs <;> simp_all
  unfold accessedRegister
  split_ifs with h
  · rw [key]
    exact ⟨fun e => ⟨h.1, by omega⟩, fun e => by omega⟩
  · refine iff_of_false (by simp) ?_
    rintro ⟨h1, h2⟩
    exact h ⟨h1, by omega⟩

@[simp] theorem accessedRegister_offset (p : Platform) (r : Register) :
    accessedRegister p (p.regBase + r.offset) 4 = some r := accessedRegister_eq_some.2 ⟨rfl, rfl⟩

/-! One byte. -/

theorem hostWriteLoc_cases (l : Loc) (b : Byte) (s : State) :
    hostWriteLoc l b s = s.recordHazards (writeHazards s l) ∧ s.busy = true ∧ (s.inDstBuffer l || s.inSrcBuffer l) = true ∨
    hostWriteLoc l b s = s.writeLoc l b ∧ ¬ (s.busy = true ∧ (s.inDstBuffer l || s.inSrcBuffer l) = true) := by
  unfold hostWriteLoc
  split_ifs with h
  · exact .inl ⟨rfl, by simpa using h⟩
  · exact .inr ⟨rfl, by simpa using h⟩

/-- A write that is a hazard records those of the buffers its byte belongs to, and nothing else happens. -/
theorem hostWriteLoc_hazard {s : State} {l : Loc} (b : Byte) (hb : s.busy = true)
    (h : s.inDstBuffer l = true ∨ s.inSrcBuffer l = true) :
    hostWriteLoc l b s = { s with faults := { s.faults with
      dstBusy := s.faults.dstBusy || s.inDstBuffer l
      srcBusy := s.faults.srcBusy || s.inSrcBuffer l } } := by
  unfold hostWriteLoc
  rw [if_pos (by simpa [hb] using h)]
  simp [State.recordHazards, writeHazards, Hazards.none, hb]

@[simp] theorem hostWriteLoc_regs (l : Loc) (b : Byte) (s : State) : (hostWriteLoc l b s).regs = s.regs := by
  unfold hostWriteLoc; split_ifs <;> simp

@[simp] theorem hostWriteLoc_scratch (l : Loc) (b : Byte) (s : State) : (hostWriteLoc l b s).scratch = s.scratch := by
  unfold hostWriteLoc; split_ifs <;> simp

@[simp] theorem hostWriteLoc_platform (l : Loc) (b : Byte) (s : State) : (hostWriteLoc l b s).platform = s.platform := by
  unfold hostWriteLoc; split_ifs <;> simp

@[simp] theorem hostWriteLoc_host (l : Loc) (b : Byte) (s : State) : (hostWriteLoc l b s).host = s.host := by
  unfold hostWriteLoc; split_ifs <;> simp

@[simp] theorem hostWriteLoc_draws (l : Loc) (b : Byte) (s : State) : (hostWriteLoc l b s).draws = s.draws := by
  unfold hostWriteLoc; split_ifs <;> simp

theorem hostWriteLoc_recorded (l : Loc) (b : Byte) (s : State) : Recorded s (hostWriteLoc l b s) := by
  unfold hostWriteLoc
  split_ifs
  · exact recorded_recordHazards s _
  · exact Recorded.of_eq (by simp) (by simp) (by simp)

/-- The memories of `s` in form, and nothing listed outside the spaces. -/
def MemOk (s : State) : Prop := s.memWf ∧ s.memInSpaces

theorem MemOk.of_eq {s t : State} (h : MemOk s) (h1 : t.src = s.src) (h2 : t.dst = s.dst) (h3 : t.platform = s.platform) :
    MemOk t := by
  unfold MemOk State.memWf State.memInSpaces at *
  rwa [h1, h2, h3]

theorem MemOk.writeLoc {s : State} (h : MemOk s) {l : Loc} (hl : InSpaces s.platform l) (b : Byte) : MemOk (s.writeLoc l b) :=
  ⟨memWf_writeLoc h.1 l b, memInSpaces_writeLoc h.2 hl b⟩

theorem hostWriteLoc_memOk {s : State} (h : MemOk s) {l : Loc} (hl : InSpaces s.platform l) (b : Byte) :
    MemOk (hostWriteLoc l b s) := by
  unfold hostWriteLoc
  split_ifs
  · exact h.of_eq rfl rfl rfl
  · exact h.writeLoc hl b

/-! LOADSRC. -/

theorem hostWriteSrc_keeps (a : Nat) (b : Byte) (s : State) :
    (hostWriteSrc a b s).regs = s.regs ∧ (hostWriteSrc a b s).scratch = s.scratch ∧ (hostWriteSrc a b s).host = s.host ∧
      (hostWriteSrc a b s).draws = s.draws ∧ Recorded s (hostWriteSrc a b s) ∧ (MemOk s → MemOk (hostWriteSrc a b s)) := by
  unfold hostWriteSrc
  split_ifs with h
  · exact ⟨by simp, by simp, by simp, by simp, hostWriteLoc_recorded _ _ _,
      fun hm => hostWriteLoc_memOk hm (.inl ⟨a, h, rfl⟩) b⟩
  · exact ⟨rfl, rfl, rfl, rfl, recorded_refuse s, fun hm => hm.of_eq rfl rfl rfl⟩

theorem hostLoadSrc_keeps (a : Nat) (bs : List Byte) (s : State) :
    (hostLoadSrc a bs s).regs = s.regs ∧ (hostLoadSrc a bs s).scratch = s.scratch ∧ (hostLoadSrc a bs s).host = s.host ∧
      (hostLoadSrc a bs s).draws = s.draws ∧ Recorded s (hostLoadSrc a bs s) ∧ (MemOk s → MemOk (hostLoadSrc a bs s)) := by
  induction bs generalizing a s with
  | nil => exact ⟨rfl, rfl, rfl, rfl, Recorded.refl s, id⟩
  | cons b bs ih =>
    obtain ⟨a1, a2, a3, a4, a5, a6⟩ := hostWriteSrc_keeps a b s
    obtain ⟨b1, b2, b3, b4, b5, b6⟩ := ih (a + 1) (hostWriteSrc a b s)
    exact ⟨b1.trans a1, b2.trans a2, b3.trans a3, b4.trans a4, a5.trans b5, fun h => b6 (a6 h)⟩

/-! Reset. -/

/-- The bytes `mixBuffer` may touch are those of the destination buffer, and each is old or decoded (R251). -/
theorem mixBuffer_spec (decoded s : State) : ∀ n,
    (mixBuffer decoded n s).regs = s.regs ∧ (mixBuffer decoded n s).scratch = s.scratch ∧
    (mixBuffer decoded n s).host = s.host ∧ (mixBuffer decoded n s).draws = s.draws ∧
    (mixBuffer decoded n s).platform = s.platform ∧ (mixBuffer decoded n s).faults = s.faults ∧
    (mixBuffer decoded n s).refused = s.refused ∧
    (∀ l, (∀ k < n, l ≠ dstLoc s.platform (s.operands.db + k)) → (mixBuffer decoded n s).readLoc l = s.readLoc l) ∧
    (∀ k < n, (mixBuffer decoded n s).readDst (s.operands.db + k) = s.readDst (s.operands.db + k) ∨
      (mixBuffer decoded n s).readDst (s.operands.db + k) = decoded.readDst (s.operands.db + k)) ∧
    (MemOk s → s.operands.db + n ≤ s.platform.dstSpaceBytes → MemOk (mixBuffer decoded n s))
  | 0 => ⟨rfl, rfl, rfl, rfl, rfl, rfl, rfl, fun _ _ => rfl, fun _ h => absurd h (by omega), fun h _ => h⟩
  | n + 1 => by
    obtain ⟨h1, h2, h3, h4, h5, h6, h7, h8, h9, h10⟩ := mixBuffer_spec decoded s n
    have hstep : mixBuffer decoded (n + 1) s =
        if Config.freeByteDecoded s.draws n then
          (mixBuffer decoded n s).writeLoc (dstLoc s.platform (s.operands.db + n)) (decoded.readDst (s.operands.db + n))
        else mixBuffer decoded n s := by
      simp only [mixBuffer, List.range_succ, List.foldl_append, List.foldl_cons, List.foldl_nil]
      split_ifs
      · rw [writeDst_eq]
        congr 2
      · rfl
    rw [hstep]
    split_ifs
    · refine ⟨by simp [h1], by simp [h2], by simp [h3], by simp [h4], by simp [h5], by simp [h6], by simp [h7], ?_, ?_, ?_⟩
      · intro l hl
        rw [readLoc_writeLoc, if_neg (hl n (by omega)), h8 l fun k hk => hl k (by omega)]
      · intro k hk
        simp only [State.readDst, writeLoc_platform, h5, readLoc_writeLoc, dstLoc_inj]
        split_ifs with e
        · right; rw [e]
        · have := h9 k (by omega)
          simpa only [State.readDst, h5] using this
      · intro hm hn
        exact (h10 hm (by omega)).writeLoc (.inr ⟨s.operands.db + n, by rw [h5]; omega, by rw [h5]⟩) _
    · refine ⟨h1, h2, h3, h4, h5, h6, h7, fun l hl => h8 l fun k hk => hl k (by omega), ?_, fun hm hn => h10 hm (by omega)⟩
      intro k hk
      by_cases e : k = n
      · subst e
        left
        simp only [State.readDst, h5]
        refine h8 _ fun k' hk' he => ?_
        rw [dstLoc_inj] at he
        omega
      · exact h9 k (by omega)

theorem validate_ok {word : Word} {o : Operands} {p : Platform} {i : Instr} (h : validate word o p = .ok i) :
    decode word = .ok i ∧ checkOperands i o p = none := by
  unfold validate at h
  split at h
  · cases h
  · rename_i j hj
    split at h
    · cases h
    · cases h
      exact ⟨hj, by assumption⟩

/-- The three ways Perform ends on the latched word (R101, R102, R257). -/
theorem perform_cases (s : State) :
    (s.buffersAlias = true ∧ perform s = .next s.refuse) ∨
    (s.buffersAlias = false ∧ ∃ e, validate s.regs.cmd s.operands s.platform = .error e ∧ perform s = .next (raiseError e s)) ∨
    (∃ i, decode s.regs.cmd = .ok i ∧ Accepts i s ∧ perform s = .next (endCommand (decodeImage i s.operands s))) := by
  unfold perform validate
  cases hd : decode s.regs.cmd with
  | error e => cases ha : s.buffersAlias <;> simp [unlessAliased, ha]
  | ok i =>
    simp only [exec_eq]
    rcases performCommand_cases i (decodeImage i) s with ⟨h1, h2⟩ | ⟨h1, e, h2, h3⟩ | ⟨h1, h2⟩
    · exact .inl ⟨h1, h2⟩
    · exact .inr (.inl ⟨h1, e, by simp [h2], h3⟩)
    · exact .inr (.inr ⟨i, rfl, h1, h2⟩)

/-- The three ways a reset meets a running command. -/
theorem abandonCommand_cases (s : State) :
    (s.buffersAlias = true ∧ abandonCommand s = s.refuse) ∨
    (s.buffersAlias = false ∧ (∃ e, validate s.regs.cmd s.operands s.platform = .error e) ∧ abandonCommand s = s) ∨
    (∃ i, decode s.regs.cmd = .ok i ∧ Accepts i s ∧
      abandonCommand s = mixBuffer (decodeImage i s.operands s) s.operands.dstLen s) := by
  unfold abandonCommand
  cases ha : s.buffersAlias with
  | true => exact .inl ⟨rfl, by simp⟩
  | false =>
    cases hv : validate s.regs.cmd s.operands s.platform with
    | error e => exact .inr (.inl ⟨rfl, ⟨e, rfl⟩, by simp⟩)
    | ok i =>
      obtain ⟨hd, hc⟩ := validate_ok hv
      exact .inr (.inr ⟨i, hd, accepts_iff.2 ⟨hc, ha⟩, by simp⟩)

theorem abandonCommand_keeps (s : State) :
    (abandonCommand s).host = s.host ∧ (abandonCommand s).faults = s.faults ∧ Recorded s (abandonCommand s) ∧
      (MemOk s → MemOk (abandonCommand s)) := by
  rcases abandonCommand_cases s with ⟨-, h⟩ | ⟨-, -, h⟩ | ⟨i, -, ha, h⟩ <;> rw [h]
  · exact ⟨rfl, rfl, recorded_refuse s, fun hm => hm.of_eq rfl rfl rfl⟩
  · exact ⟨rfl, rfl, Recorded.refl s, id⟩
  · obtain ⟨-, -, h3, -, h5, h6, h7, -, -, h10⟩ := mixBuffer_spec (decodeImage i s.operands s) s s.operands.dstLen
    exact ⟨h3, h6, Recorded.of_eq h5 h6 h7, fun hm => h10 hm ha.destination⟩

/-! Every operation. -/

theorem hostReset_keeps (s : State) :
    (hostReset s).regs = Regs.reset ∧ (hostReset s).host = s.host ∧ Recorded s (hostReset s) ∧
      (MemOk s → MemOk (hostReset s)) ∧ (hostReset s).scratch.InRange := by
  have hr : ∀ u : State, (releaseAll (u.setRegs Regs.reset)).scratch.InRange := fun u => by
    obtain ⟨f1, f2, f3, f4, f5⟩ := freeScan_inRange u.draws
    exact ⟨(Config.freeCursor u.draws).isLt, f1, f2, f3, f4, f5⟩
  have ho : ∀ u : State, Recorded u (releaseAll (u.setRegs Regs.reset)) := fun u => Recorded.of_eq rfl rfl rfl
  have hm : ∀ u : State, MemOk u → MemOk (releaseAll (u.setRegs Regs.reset)) := fun u h => h.of_eq rfl rfl rfl
  unfold hostReset
  split_ifs
  · obtain ⟨a1, -, a3, a4⟩ := abandonCommand_keeps s
    exact ⟨rfl, a1, a3.trans (ho _), fun h => hm _ (a4 h), hr _⟩
  · exact ⟨rfl, rfl, ho _, hm s, hr _⟩

theorem writeRegister_keeps (r : Register) (v : Word) (s : State) :
    (writeRegister r v s).scratch = s.scratch ∧ (writeRegister r v s).src = s.src ∧ (writeRegister r v s).dst = s.dst ∧
      (writeRegister r v s).faults = s.faults ∧ (writeRegister r v s).refused = s.refused ∧
      (writeRegister r v s).platform = s.platform ∧ (writeRegister r v s).host = s.host ∧
      (writeRegister r v s).draws = s.draws := by
  cases r <;> exact ⟨rfl, rfl, rfl, rfl, rfl, rfl, rfl, rfl⟩

theorem hostReadLoc_cases (l : Loc) (s : State) :
    hostReadLoc l s = s.recordHazards { Hazards.none with dstBusy := true } ∨ hostReadLoc l s = s.reply (.byte (s.readLoc l)) := by
  unfold hostReadLoc; split_ifs
  · exact .inl rfl
  · exact .inr rfl

theorem recorded_reply (s : State) (v : HostReply) : Recorded s (s.reply v) := Recorded.of_eq rfl rfl rfl

/-- No host operation clears what is recorded, and each keeps the memories' form. -/
theorem hostStep_keeps (op : HostOp) (s : State) : Recorded s (hostStep op s) ∧ (MemOk s → MemOk (hostStep op s)) := by
  have hrd : ∀ l, Recorded s (hostReadLoc l s) ∧ (MemOk s → MemOk (hostReadLoc l s)) := fun l => by
    rcases hostReadLoc_cases l s with h | h <;> rw [h]
    · exact ⟨recorded_recordHazards s _, fun hm => hm.of_eq rfl rfl rfl⟩
    · exact ⟨recorded_reply s _, fun hm => hm.of_eq rfl rfl rfl⟩
  have href : Recorded s s.refuse ∧ (MemOk s → MemOk s.refuse) := ⟨recorded_refuse s, fun hm => hm.of_eq rfl rfl rfl⟩
  cases op with
  | busWrite offset bytes v =>
    simp only [hostStep, hostBusWrite]
    split
    · exact href
    · rename_i r _
      split_ifs
      · exact ⟨recorded_recordHazards s _, fun hm => hm.of_eq rfl rfl rfl⟩
      · obtain ⟨-, h2, h3, h4, h5, h6, -, -⟩ := writeRegister_keeps r v s
        exact ⟨Recorded.of_eq h6 h4 h5, fun hm => hm.of_eq h2 h3 h6⟩
  | busRead offset bytes =>
    simp only [hostStep, hostBusRead]
    split
    · exact href
    · exact ⟨recorded_reply s _, fun hm => hm.of_eq rfl rfl rfl⟩
  | wait =>
    simp only [hostStep, hostWait]
    split_ifs <;> exact ⟨Recorded.of_eq rfl rfl rfl, fun hm => hm.of_eq rfl rfl rfl⟩
  | loadSrc a bs => exact ⟨(hostLoadSrc_keeps a bs s).2.2.2.2.1, (hostLoadSrc_keeps a bs s).2.2.2.2.2⟩
  | readSrc a =>
    simp only [hostStep, hostReadSrc]
    split_ifs
    · exact hrd _
    · exact href
  | writeDst a b =>
    simp only [hostStep, hostWriteDst]
    split_ifs with h
    · exact ⟨hostWriteLoc_recorded _ _ _, fun hm => hostWriteLoc_memOk hm (.inr ⟨a, h, rfl⟩) b⟩
    · exact href
  | readDst a =>
    simp only [hostStep, hostReadDst]
    split_ifs
    · exact hrd _
    · exact href
  | reset => exact ⟨(hostReset_keeps s).2.2.1, (hostReset_keeps s).2.2.2.1⟩

/-- No host operation gives or takes a turn. -/
theorem hostStep_turns (op : HostOp) (s : State) : (hostStep op s).host.turns = s.host.turns := by
  cases op with
  | busWrite offset bytes v =>
    simp only [hostStep, hostBusWrite]
    split
    · rfl
    · rename_i r _
      split_ifs
      · rfl
      · rw [(writeRegister_keeps r v s).2.2.2.2.2.2.1]
  | busRead offset bytes => simp only [hostStep, hostBusRead]; split <;> rfl
  | wait => simp only [hostStep, hostWait]; split_ifs <;> rfl
  | loadSrc a bs => simp only [hostStep, (hostLoadSrc_keeps a bs s).2.2.1]
  | readSrc a => simp only [hostStep, hostReadSrc, hostReadLoc]; split_ifs <;> rfl
  | writeDst a b => simp only [hostStep, hostWriteDst]; split_ifs <;> simp
  | readDst a => simp only [hostStep, hostReadDst, hostReadLoc]; split_ifs <;> rfl
  | reset => simp only [hostStep, (hostReset_keeps s).2.1]

/-! One step. -/

/-- The ways a step goes: Perform with the turn taken, a host operation while BUSY = 1 with turn and operation taken, a host
operation while BUSY = 0, or the stop. -/
theorem step_cases (s : State) :
    (s.busy = true ∧ (s.host.ops = [] ∨ s.hostsTurn = false) ∧ step s = perform s.afterTurn) ∨
    (∃ op ops, s.busy = true ∧ s.host.ops = op :: ops ∧ s.hostsTurn = true ∧ step s = .next (hostStep op s.afterTurn.afterOp)) ∨
    (∃ op ops, s.busy = false ∧ s.host.ops = op :: ops ∧ step s = .next (hostStep op s.afterOp)) ∨
    (s.busy = false ∧ s.host.ops = [] ∧ step s = .fault .noAgentEnabled) := by
  unfold step
  cases hb : s.busy <;> cases ho : s.host.ops <;> cases ht : s.hostsTurn <;> simp

end Sys2Proof.Machine
end

