-- ==== Sys2Proof/Laws/Image.lean ====
section
/-! SUPPORT. The closed form: which source bytes a pixel reads (R60), and which pixel a byte of the destination buffer belongs to
(R61, R114). -/

namespace Sys2Proof.Machine

/-- Every byte of the destination buffer is one byte of one pixel. -/
theorem byte_of_pixel {w h k : Nat} (hk : k < w * h * 4) :
    ∃ c r j, c < w ∧ r < h ∧ j < 4 ∧ k = pixelOffset w c r + j := by
  have hw : 0 < w := by
    rcases Nat.eq_zero_or_pos w with h0 | h0
    · simp [h0] at hk
    · exact h0
  refine ⟨k / 4 % w, k / 4 / w, k % 4, Nat.mod_lt _ hw, ?_, Nat.mod_lt _ (by omega), ?_⟩
  · rw [Nat.div_lt_iff_lt_mul hw, Nat.div_lt_iff_lt_mul (by omega), Nat.mul_comm h w]
    exact hk
  · unfold pixelOffset
    have := Nat.div_add_mod' (k / 4) w
    omega

/-- The tile of a pixel is one of the image's. -/
theorem tile_lt {w h tw th c r : Nat} (htw : 0 < tw) (hth : 0 < th) (hw : w % tw = 0) (hh : h % th = 0) (hc : c < w)
    (hr : r < h) : 32 * (r / th * (w / tw) + c / tw) + 32 ≤ 32 * (w / tw) * (h / th) := by
  have h1 : c / tw < w / tw := by
    rw [Nat.div_lt_iff_lt_mul htw, Nat.div_mul_cancel (Nat.dvd_of_mod_eq_zero hw)]; exact hc
  have h2 : r / th < h / th := by
    rw [Nat.div_lt_iff_lt_mul hth, Nat.div_mul_cancel (Nat.dvd_of_mod_eq_zero hh)]; exact hr
  calc 32 * (r / th * (w / tw) + c / tw) + 32 = 32 * (r / th * (w / tw) + (c / tw + 1)) := by ring
    _ ≤ 32 * (r / th * (w / tw) + w / tw) := by omega
    _ = 32 * (w / tw) * (r / th + 1) := by ring
    _ ≤ 32 * (w / tw) * (h / th) := Nat.mul_le_mul_left _ h2

/-- The value of a pixel is a function of the required source bytes (R60). -/
theorem imagePixel_congr {i : Instr} {w h : Nat} {f g : Nat → Byte} (hw : w % tileWidth i = 0) (hh : h % tileHeight i = 0)
    (hfg : ∀ k < requiredLength i w h, f k = g k) {c r : Nat} (hc : c < w) (hr : r < h) :
    imagePixel i w f c r = imagePixel i w g c r := by
  have hlt := tile_lt (by cases i <;> decide) (by cases i <;> decide) hw hh hc hr
  rw [← requiredLength_tiles hw hh] at hlt
  cases i <;>
    simp only [imagePixel, tileWidth, tileHeight, bitsPerPixel, sampleOffset, subBlockOffset, macroblockNumber, subBlockOf] at hlt ⊢
  · rw [hfg _ (by omega)]
  · rw [hfg _ (by omega)]
  · rw [hfg _ (by omega)]
  · rw [hfg _ (by omega), hfg _ (by omega)]
  · rw [Nat.mul_div_cancel_left _ (by omega), Nat.mul_div_cancel_left _ (by omega), hfg _ (by omega), hfg _ (by omega),
      hfg _ (by omega), hfg _ (by omega), hfg _ (by omega)]

/-- Rows from a tile boundary `r0` on are the image of the source bytes from `req(W, r0)` on (R120). -/
theorem imagePixel_band {i : Instr} {w r0 : Nat} (f : Nat → Byte) (hw : w % tileWidth i = 0) (h0 : r0 % tileHeight i = 0)
    (c r : Nat) : imagePixel i w f c (r0 + r) = imagePixel i w (fun k => f (requiredLength i w r0 + k)) c r := by
  rw [requiredLength_tiles hw h0]
  obtain ⟨m, rfl⟩ := Nat.dvd_of_mod_eq_zero h0
  have key : ∀ t a k : Nat, 0 < t → 32 * ((t * m + r) / t * a + k) = 32 * a * (t * m / t) + 32 * (r / t * a + k) := by
    intro t a k ht
    rw [Nat.mul_add_div ht, Nat.mul_div_cancel_left _ ht]
    ring
  have e8 : (8 * m + r) % 4 = r % 4 := by omega
  cases i <;>
    simp only [imagePixel, tileWidth, tileHeight, bitsPerPixel, sampleOffset, subBlockOffset, macroblockNumber, subBlockOf,
      Nat.mul_add_mod, Nat.mul_div_cancel_left _ (show 0 < 8 by omega), key _ _ _ (show 0 < 8 by omega),
      key _ _ _ (show 0 < 4 by omega), e8, Nat.add_assoc]

end Sys2Proof.Machine
end

