-- ==== Sys2Proof/Laws/PerInstr.lean ====
section
/-! SUPPORT. Statements made per command. -/

namespace Sys2Proof.Laws

/-- Every command is well formed, and its word is a format number of four bits: bits [31:4] are 0 (30_encoding.md R71). -/
def WordIsFormatNumber.Statement (i : Instr) : Prop := i.wf = true ∧ (encode i).extractLsb' 4 28 = 0#28

theorem WordIsFormatNumber.decI4 : WordIsFormatNumber.Statement .decI4 := ⟨rfl, rfl⟩

theorem WordIsFormatNumber.decI8 : WordIsFormatNumber.Statement .decI8 := ⟨rfl, rfl⟩

theorem WordIsFormatNumber.decIA4 : WordIsFormatNumber.Statement .decIA4 := ⟨rfl, rfl⟩

theorem WordIsFormatNumber.decIA8 : WordIsFormatNumber.Statement .decIA8 := ⟨rfl, rfl⟩

theorem WordIsFormatNumber.decCMPR : WordIsFormatNumber.Statement .decCMPR := ⟨rfl, rfl⟩

end Sys2Proof.Laws
end

