-- ==== Sys2Proof/Tests/Slice0.lean ====
section
/-! SUPPORT. Tests: words and values from 30_encoding.md and 95_test_vectors.md, ill-formed host operations, and a witness for the
hypotheses of every statement that has some. -/

namespace Sys2Proof.Tests

open Sys2Proof Sys2Proof.Machine

set_option maxRecDepth 100000

/-! Small states. -/

/-- Source bytes from address 0 on. -/
def cells : Nat → List Nat → Memory
  | _, [] => []
  | a, b :: bs => if b = 0 then cells (a + 1) bs else (a, BitVec.ofNat 8 b) :: cells (a + 1) bs

/-- The vectors' platform: both spaces 0x1000 bytes, the register block at bus address 0x8000. -/
def small : Platform := { srcSpaceBytes := 0x1000, dstSpaceBytes := 0x1000, plan := .separate, regBase := 0x8000, instances := 1 }

/-- Registers as a vector's table lists them. -/
def regs (cmd w h srcBase srcLen dstBase status : Nat) : Regs :=
  { width := .ofNat 32 w, height := .ofNat 32 h, srcBase := .ofNat 32 srcBase, srcLen := .ofNat 32 srcLen,
    dstBase := .ofNat 32 dstBase, cmd := .ofNat 32 cmd, status := .ofNat 32 status }

/-- An idle TXD with these operands at base 0 and these source bytes. -/
def idle (w h srcLen : Nat) (bytes : List Nat) : State :=
  { State.resetOn small with regs := regs 0 w h 0 srcLen 0 0, src := cells 0 bytes }

/-- A TXD with a command under way. -/
def running (cmd w h srcBase srcLen dstBase : Nat) : State :=
  { State.resetOn small with regs := regs cmd w h srcBase srcLen dstBase 1 }

/-- One memory of 0x1000 bytes seen as both spaces. -/
def overlaid : Platform := { srcSpaceBytes := 0x1000, dstSpaceBytes := 0x1000, plan := .shared 0 0, regBase := 0x8000, instances := 1 }

/-- One memory seen as both spaces, and an 8x4 I8 command whose buffers share bytes. -/
def aliased : State :=
  { State.resetOn overlaid with regs := regs 1 8 4 0 32 0 1 }

/-- The same memory with the buffers apart. -/
def apart : State :=
  { State.resetOn { srcSpaceBytes := 0x1000, dstSpaceBytes := 0x800, plan := .shared 0 0x800, regBase := 0x8000, instances := 1 } with
    regs := regs 1 8 4 0 32 0 1 }

/-- The four bytes of pixel `(c, r)` of an image at destination base 0. -/
def px (o : Host.Outcome State Fault Refusal) (w c r : Nat) : Option (List Nat) :=
  match o with
  | .next t => some ((List.range 4).map fun j => (t.readDst (pixelOffset w c r + j)).toNat)
  | _ => none

def statusOf (o : Host.Outcome State Fault Refusal) : Option Nat :=
  match o with
  | .next t => some t.regs.status.toNat
  | _ => none

/-- Perform on a running state. -/
def ended (s : State) : Option Nat := statusOf (perform s)

def entries (c d : Nat) : List (List Nat) :=
  let p := buildPalette (.ofNat 16 c) (.ofNat 16 d)
  [p.p0, p.p1, p.p2, p.p3].map fun e => [e.r.toNat, e.g.toNat, e.b.toNat, e.a.toNat]

/-! Command words, bit by bit (30_encoding.md R71, R72, R75). -/

theorem test_word_i4 : decode 0b00000000000000000000000000000000#32 = .ok .decI4 := by decide

theorem test_word_i8 : decode 0b00000000000000000000000000000001#32 = .ok .decI8 := by decide

theorem test_word_ia4 : decode 0b00000000000000000000000000000010#32 = .ok .decIA4 := by decide

theorem test_word_ia8 : decode 0b00000000000000000000000000000011#32 = .ok .decIA8 := by decide

theorem test_word_cmpr : decode 0b00000000000000000000000000001110#32 = .ok .decCMPR := by decide

theorem test_words_reserved :
    decode 0b00000000000000000000000000000100#32 = .error .reservedWord ∧
    decode 0b00000000000000000000000000001111#32 = .error .reservedWord ∧
    decode 0b10000000000000000000000000000001#32 = .error .reservedWord ∧
    decodeTableWord 32 0x4 = none := by decide

theorem test_table_words : decodeTableWord 32 0x0 = some .decI4 ∧ decodeTableWord 32 0x1 = some .decI8 ∧
    decodeTableWord 32 0x2 = some .decIA4 ∧ decodeTableWord 32 0x3 = some .decIA8 ∧
    decodeTableWord 32 0xE = some .decCMPR := by decide

/-! The five commands after reset and on the vectors of 95_test_vectors.md. -/

/-- R252: every command straight after reset decodes an empty image and ends DONE. -/
theorem test_first_step_after_reset :
    [0x0, 0x1, 0x2, 0x3, 0xE].map (fun w => statusOf (step (State.reset.withFetchWord 32 w))) =
      [some 2, some 2, some 2, some 2, some 2] := by decide

/-- V-I8-SEQ: pixel (3, 2) is 8*2 + 3. -/
theorem test_i8 : px (step ((idle 8 4 32 (List.range 32)).withFetchWord 32 0x1)) 8 3 2 = some [19, 19, 19, 19] := by decide

/-- V-I4-NIB, V-I4-SEQ's place: byte 0 = 0x5A. -/
theorem test_i4 :
    let o := step ((idle 8 8 32 [0x5A]).withFetchWord 32 0x0)
    px o 8 0 0 = some [0x55, 0x55, 0x55, 0x55] ∧ px o 8 1 0 = some [0xAA, 0xAA, 0xAA, 0xAA] := by decide

/-- V-IA4-MIX: byte 4 = 0x12 is alpha 1, intensity 2. -/
theorem test_ia4 :
    px (step ((idle 8 4 32 [0, 0x0F, 0xF0, 0xFF, 0x12]).withFetchWord 32 0x2)) 8 4 0 = some [0x22, 0x22, 0x22, 0x11] := by
  decide

/-- V-IA8-PAIR: `80 40` is alpha, intensity. -/
theorem test_ia8 : px (step ((idle 4 4 32 [0x80, 0x40]).withFetchWord 32 0x3)) 4 0 0 = some [0x40, 0x40, 0x40, 0x80] := by
  decide

/-- V-CMPR-QUAD: pixels (4, 0), (0, 4) and (4, 4). -/
theorem test_cmpr :
    let o := step ((idle 8 8 32 ([0xF8, 0, 0, 0, 0, 0, 0, 0] ++ [0x07, 0xE0, 0, 0, 0, 0, 0, 0] ++ [0, 0x1F, 0, 0, 0, 0, 0, 0] ++
      [0xFF, 0xFF, 0, 0, 0xE4, 0xE4, 0xE4, 0xE4])).withFetchWord 32 0xE)
    px o 8 4 0 = some [0, 0xFF, 0, 0xFF] ∧ px o 8 0 4 = some [0, 0, 0xFF, 0xFF] ∧
      px o 8 4 4 = some [0x5F, 0x5F, 0x5F, 0xFF] := by decide

/-- V-I8-SEQ16: pixel (10, 5) reads byte 106 (R117). -/
theorem test_sample_offset : sampleOffset 8 4 8 16 10 5 = 106 := by decide

/-- R143's example: in a 16x8 image the BL sub-block at (8, 0) starts at byte 48. -/
theorem test_sub_block_offset : subBlockOffset 16 { xx := 8, yy := 0, s := 2 } = 48 := by decide

/-- V-PAL-4, V-PAL-7 and V-PAL-8. -/
theorem test_palettes :
    entries 0xF800 0x001F = [[255, 0, 0, 255], [0, 0, 255, 255], [0x9F, 0, 0x5F, 255], [0x5F, 0, 0x9F, 255]] ∧
    entries 0x8410 0x4208 =
      [[0x84, 0x82, 0x84, 255], [0x42, 0x41, 0x42, 255], [0x6B, 0x69, 0x6B, 255], [0x5A, 0x59, 0x5A, 255]] ∧
    entries 0x4208 0x8410 =
      [[0x42, 0x41, 0x42, 255], [0x84, 0x82, 0x84, 255], [0x63, 0x61, 0x63, 255], [0x63, 0x61, 0x63, 0]] := by decide

/-! Errors: rows of 95_test_vectors.md 2.7. -/

/-- V-ERR-1 to V-ERR-5. -/
theorem test_errors :
    ended (running 0x4 8 8 0 32 0) = some 0x14 ∧ ended (running 0x80000001 8 4 0 32 0) = some 0x14 ∧
    ended (running 0xE 12 8 0 48 0) = some 0x24 ∧ ended (running 0x3 6 4 0 48 0) = some 0x24 ∧
    ended (running 0xE 8 8 0 31 0) = some 0x34 := by decide

/-- V-ERR-6 to V-ERR-8, V-PRI-1 to V-PRI-3. -/
theorem test_errors_range_priority :
    ended (running 0x3 8 4 0 63 0) = some 0x34 ∧ ended (running 0xE 8 8 0xFF0 32 0) = some 0x44 ∧
    ended (running 0x1 8 4 0 32 0xF81) = some 0x44 ∧ ended (running 0xF 3 3 0 0 0) = some 0x14 ∧
    ended (running 0x0 8 4 0 0 0) = some 0x24 ∧ ended (running 0x3 4 4 0xFFFFFFF0 31 0) = some 0x34 := by decide

/-- V-ZERO-1 to V-ZERO-3, V-WRAP-1. -/
theorem test_empty_and_wrap :
    ended (running 0xE 0 8 0 0 0) = some 2 ∧ ended (running 0x0 0 0 0 0 0x1000) = some 2 ∧
    ended (running 0x0 0 0 0 0 0x1001) = some 0x44 ∧ ended (running 0xE 0x40000000 8 0 0xFFFFFFFF 0) = some 0x34 := by
  decide

/-! Hazards, refusals and reset: 95_test_vectors.md 2.9. -/

/-- V-HAZ-1. -/
theorem test_haz_register :
    let t := hostStep (.wr small .width 16) (running 0xE 8 8 0 32 0)
    t.faults.regWriteBusy = true ∧ t.regs.width = 8#32 := by decide

/-- V-HAZ-2 and V-HAZ-3. -/
theorem test_haz_buffers :
    (hostStep (.readDst 0) (running 0x1 8 4 0 32 0)).faults = { regWriteBusy := false, dstBusy := true, srcBusy := false } ∧
    (hostStep (.loadSrc 0 [7#8]) (running 0x1 8 4 0 32 0)).faults =
      { regWriteBusy := false, dstBusy := false, srcBusy := true } ∧
    (hostStep (.loadSrc 0 [7#8]) (running 0x1 8 4 0 32 0)).readSrc 0 = 0#8 := by decide

/-- V-HAZ-4. -/
theorem test_poll_while_busy :
    let t := hostStep (.rd small .status) (running 0x1 8 4 0 32 0)
    t.faults = Hazards.none ∧ t.host.replies = [.word 1#32] := by decide

/-- V-REF-1 and V-REF-2. -/
theorem test_refusals : (hostStep (.busRead 0x1C 4) State.reset).refused = true ∧
    (hostStep (.busWrite 0x02 4 0#32) State.reset).refused = true := by decide

/-- R257: overlapping buffers are refused before any check, a reserved word's too. -/
theorem test_aliased_refused :
    (match perform { aliased with regs := regs 4 9 4 0 0x2000 0 1 } with
      | .next t => t.refused && t.regs.status == 1#32
      | _ => false) = true := by decide

/-- V-RST-1. -/
theorem test_reset_while_busy : (hostStep .reset (running 0x1 8 4 0 32 0)).regs = Regs.reset := by
  rw [hostStep, (hostReset_keeps _).1]

/-- R86, R88: `WR CMD, DEC.CMPR` is the bus pair (0x14, 0x0000000E), the offset from `REG_BASE`; R87's expansion has seven operations. -/
theorem test_host_program : HostOp.wr small .cmd (encode .decCMPR) = .busWrite (0x8000 + 0x14) 4 0x0000000E#32 ∧
    (decProgram small 1 8 4 0 32 0).length = 7 := by decide

/-! Ill-formed host operations are refused: one for each check of HostOp.wf. -/

theorem test_ill_formed :
    HostOp.wf small (.busWrite 0x801C 4 0#32) = false ∧ HostOp.wf small (.busWrite 0x8002 4 0#32) = false ∧
    HostOp.wf small (.busWrite 0x8000 2 0#32) = false ∧ HostOp.wf small (.busRead 0x801C 4) = false ∧
    HostOp.wf small (.busRead 0x8000 8) = false ∧ HostOp.wf small (.busRead 0x0018 4) = false ∧ HostOp.wf small (.loadSrc 0xFFF [1#8, 2#8]) = false ∧
    HostOp.wf small (.readSrc 0x1000) = false ∧ HostOp.wf small (.writeDst 0x1000 1#8) = false ∧
    HostOp.wf small (.readDst 0x1000) = false := by decide

theorem test_well_formed :
    HostOp.wf small (.wr small .status 0#32) = true ∧ HostOp.wf small (.rd small .cmd) = true ∧
    HostOp.wf small (.loadSrc 0xFFE [1#8, 2#8]) = true ∧ HostOp.wf small (.loadSrc 0x2000 []) = true ∧
    HostOp.wf small (.readDst 0xFFF) = true := by decide

/-! Witnesses: a state and operands that meet the hypotheses of each statement, at the ends of their ranges. -/

theorem witness_ReservedWordEndsUnsupported : State.reset.busy = false ∧ State.reset.buffersAlias = false ∧
    (0x00000004#32 ≠ 0x00000000#32 ∧ 0x00000004#32 ≠ 0x00000001#32 ∧ 0x00000004#32 ≠ 0x00000002#32 ∧
      0x00000004#32 ≠ 0x00000003#32 ∧ 0x00000004#32 ≠ 0x0000000E#32) ∧
    (0xFFFFFFFF#32 ≠ 0x00000000#32 ∧ 0xFFFFFFFF#32 ≠ 0x00000001#32 ∧ 0xFFFFFFFF#32 ≠ 0x00000002#32 ∧
      0xFFFFFFFF#32 ≠ 0x00000003#32 ∧ 0xFFFFFFFF#32 ≠ 0x0000000E#32) := by decide

/-- With an operation to do and the turn the decoder's. -/
def decodersTurn : State := { running 1 8 4 0 32 0 with host := { ops := [.wait], turns := [.decoder], replies := [], last := none } }

/-- With an operation to do and the turn the host's. -/
def hostsTurn : State := { running 1 8 4 0 32 0 with host := { ops := [.wait], turns := [.host], replies := [], last := none } }

theorem witness_StepPerformsTheLatchedCommand :
    ((running 1 8 4 0 32 0).busy = true ∧ (running 1 8 4 0 32 0).host.ops = [] ∧
      decode (running 1 8 4 0 32 0).regs.cmd = .ok .decI8) ∧
    (decodersTurn.busy = true ∧ decodersTurn.host.turns.head? ≠ some .host ∧ decode decodersTurn.regs.cmd = .ok .decI8) := by
  decide

theorem witness_StepTakesTheHostOperation :
    (State.reset.busy = false ∧ State.reset.host.ops = []) ∧
    (let s : State := { State.reset with host := { ops := [.reset], turns := [], replies := [], last := none } }
     s.busy = false ∧ s.host.ops = .reset :: []) ∧
    (hostsTurn.busy = true ∧ hostsTurn.host.ops = .wait :: [] ∧ hostsTurn.host.turns = .host :: []) := by decide

/-- An idle run's last WAIT, which ends it; a last register write, which does not; a last poll while busy. -/
theorem witness_RunEndsAtAStatusRead :
    (let s : State := { State.reset with host := { ops := [.wait], turns := [], replies := [], last := none } }
     s.host.ops = [.wait] ∧ (s.busy = true → s.hostsTurn = true) ∧ step s = .next (hostStep .wait s.afterOp) ∧
      (hostStep .wait s.afterOp).runEnded) ∧
    (let s : State :=
      { State.reset with host := { ops := [.wr Platform.standard .width 1], turns := [], replies := [], last := none } }
     step s = .next (hostStep (.wr Platform.standard .width 1) s.afterOp) ∧
      ¬ (hostStep (.wr Platform.standard .width 1) s.afterOp).runEnded) ∧
    (hostsTurn.host.ops = [.wait] ∧ hostsTurn.hostsTurn = true ∧ step hostsTurn = .next (hostStep .wait hostsTurn.afterTurn.afterOp)) :=
  ⟨⟨rfl, by decide, rfl, ⟨rfl, rfl⟩, rfl, rfl, 0#32, rfl, by decide⟩,
    ⟨rfl, fun h => absurd h.2.2.1 (by decide)⟩, rfl, rfl, rfl⟩

theorem witness_BusyFallsWithinTheTurns : hostsTurn.busy = true ∧ hostsTurn.buffersAlias = false := by decide

theorem witness_StartLatchesTheWord : State.reset.busy = false ∧ (running 1 8 4 0 32 0).busy = true := by decide

theorem witness_OperandRegisterReadsBack : State.reset.busy = false ∧
    (Register.width ≠ .cmd ∧ Register.width ≠ .status) ∧ (Register.dstBase ≠ .cmd ∧ Register.dstBase ≠ .status) := by decide

theorem witness_RegisterBlockMap : State.reset.busy = false := by decide

theorem witness_RegisterReadsAtAnyTime : State.reset.busy = false ∧ (running 1 8 4 0 32 0).busy = true := by decide

/-- One for each clause: the first offset past the block, a misaligned offset, a narrower and a wider access. -/
theorem witness_UnlistedAccessIsRefused :
    (0x1C ≤ 0x1C ∨ 0x1C % 4 ≠ 0 ∨ 4 ≠ 4) ∧ (0x1C ≤ 0x19 ∨ 0x19 % 4 ≠ 0 ∨ 4 ≠ 4) ∧ (0x1C ≤ 0 ∨ 0 % 4 ≠ 0 ∨ 2 ≠ 4) ∧
    (0x1C ≤ 0 ∨ 0 % 4 ≠ 0 ∨ 8 ≠ 4) := by decide

theorem witness_RegisterWriteWhileBusyIsAHazard : (running 1 8 4 0 32 0).busy = true := by decide

/-- The first and the last byte of the buffer, which ends the space (V-ERR-9). -/
theorem witness_DestinationAccessWhileBusyIsAHazard :
    let s := running 1 8 4 0 32 0xF80
    s.busy = true ∧ s.buffersAlias = false ∧ (0xF80 < s.platform.dstSpaceBytes ∧ s.regs.dstBase.toNat ≤ 0xF80 ∧
      0xF80 < s.regs.dstBase.toNat + s.regs.width.toNat * s.regs.height.toNat * 4) ∧
    (0xFFF < s.platform.dstSpaceBytes ∧ s.regs.dstBase.toNat ≤ 0xFFF ∧
      0xFFF < s.regs.dstBase.toNat + s.regs.width.toNat * s.regs.height.toNat * 4) := by decide

/-- The last byte of the source buffer, the bytes just past each buffer. -/
theorem witness_SourceWriteWhileBusyIsAHazard :
    let s := running 1 8 4 0 32 0
    s.busy = true ∧ s.buffersAlias = false ∧
    (31 < s.platform.srcSpaceBytes ∧ s.regs.srcBase.toNat ≤ 31 ∧ 31 < s.regs.srcBase.toNat + s.regs.srcLen.toNat) ∧
    (32 < s.platform.srcSpaceBytes ∧ s.inSrcBuffer (srcLoc s.platform 32) = false ∧
      s.inDstBuffer (srcLoc s.platform 32) = false) ∧
    (128 < s.platform.dstSpaceBytes ∧ s.inSrcBuffer (dstLoc s.platform 128) = false ∧
      s.inDstBuffer (dstLoc s.platform 128) = false) := by decide

/-- Buffers apart in one memory: the last byte of the source buffer through both views, the first of the destination buffer
through both, a byte of neither; and a byte of both buffers. -/
theorem witness_AccessesThroughEitherView :
    (let s : State := { State.resetOn overlaid with regs := regs 1 8 4 0 32 64 1 }
     s.busy = true ∧ s.buffersAlias = false ∧
     (31 < s.platform.srcSpaceBytes ∧ s.inDstBuffer (srcLoc s.platform 31) = false ∧ s.inSrcBuffer (srcLoc s.platform 31) = true) ∧
     (31 < s.platform.dstSpaceBytes ∧ s.inDstBuffer (dstLoc s.platform 31) = false ∧ s.inSrcBuffer (dstLoc s.platform 31) = true) ∧
     (64 < s.platform.srcSpaceBytes ∧ s.inDstBuffer (srcLoc s.platform 64) = true) ∧
     (64 < s.platform.dstSpaceBytes ∧ s.inDstBuffer (dstLoc s.platform 64) = true) ∧
     s.inDstBuffer (srcLoc s.platform 32) = false ∧ s.inDstBuffer (dstLoc s.platform 0xFFF) = false) ∧
    (aliased.busy = true ∧ 31 < aliased.platform.srcSpaceBytes ∧ aliased.inDstBuffer (srcLoc aliased.platform 31) = true ∧
      aliased.inSrcBuffer (srcLoc aliased.platform 31) = true) := by decide

/-- The first and the last byte of each space. -/
theorem witness_MemoryAccessesWhenIdle : let s := idle 8 4 32 []
    s.busy = false ∧ 0 < s.platform.srcSpaceBytes ∧ 0xFFF < s.platform.srcSpaceBytes ∧ 0 < s.platform.dstSpaceBytes ∧
      0xFFF < s.platform.dstSpaceBytes := by decide

/-- The first and the last byte of a one-tile image. -/
theorem witness_ResultIsCollectedAfterTheCommand : Accepts .decI8 (running 1 8 4 0 32 0xF80) ∧
    (let s := running 1 8 4 0 32 0xF80
     (0 < s.regs.width.toNat ∧ 0 < s.regs.height.toNat ∧ 0 < 4) ∧ (7 < s.regs.width.toNat ∧ 3 < s.regs.height.toNat ∧ 3 < 4)) :=
  ⟨accepts_iff.2 (by decide), by decide⟩

/-- No byte, and bytes up to the end of the space. -/
theorem witness_LoadedSourceReadsBack : State.reset.busy = false ∧ 2 ^ 32 + ([] : List Byte).length ≤ State.reset.platform.srcSpaceBytes ∧
    (2 ^ 32 - 2) + [1#8, 2#8].length ≤ State.reset.platform.srcSpaceBytes := by decide

theorem witness_IllFormedHostOperationsAreRefused :
    (HostOp.readDst 0xFFF ≠ .reset ∧ HostOp.wf small (.readDst 0xFFF) = true) ∧ HostOp.wf small (.readDst 0x1000) = false := by
  decide

theorem witness_OnlyResetEndsARunningCommand : (running 1 8 4 0 32 0).busy = true ∧ HostOp.wr small .cmd 0 ≠ .reset := by decide

/-- A step that answers a next state, with something recorded before it. -/
theorem witness_RecordedFaultsAndRefusalsStay :
    let s : State := { State.reset with refused := true, host := { ops := [.wr Platform.standard .width 1], turns := [], replies := [], last := none } }
    step s = .next (hostStep (.wr Platform.standard .width 1) s.afterOp) ∧ s.refused = true := ⟨rfl, rfl⟩

theorem witness_ResetActionWhenIdle : State.reset.busy = false := by decide

/-- The first and last byte of the buffer. -/
theorem witness_ResetActionWhileBusy :
    let s := running 1 8 4 0 32 0
    s.busy = true ∧ 0 < s.regs.width.toNat * s.regs.height.toNat * 4 ∧
      127 < s.regs.width.toNat * s.regs.height.toNat * 4 ∧ s.buffersAlias = false ∧
      (aliased.busy = true ∧ aliased.buffersAlias = true) := by decide

/-- One state for each error; the RANGE ones leave SRC and leave DST by one byte. -/
theorem witness_FirstFailingCheckIsReported :
    ((running 4 8 8 0 32 0).buffersAlias = false ∧ (running 0xE 8 8 0xFE1 32 0).buffersAlias = false) ∧
    ((running 4 8 8 0 32 0).regs.cmd ≠ 0x00000000#32 ∧ (running 4 8 8 0 32 0).regs.cmd ≠ 0x00000001#32 ∧
      (running 4 8 8 0 32 0).regs.cmd ≠ 0x00000002#32 ∧ (running 4 8 8 0 32 0).regs.cmd ≠ 0x00000003#32 ∧
      (running 4 8 8 0 32 0).regs.cmd ≠ 0x0000000E#32) ∧
    (12 % tileWidth .decCMPR ≠ 0 ∧ 8 % tileHeight .decCMPR = 0) ∧ (8 % tileWidth .decI4 = 0 ∧ 4 % tileHeight .decI4 ≠ 0) ∧
    (let s := running 0xE 8 8 0 31 0
     s.regs.width.toNat % tileWidth .decCMPR = 0 ∧ s.regs.height.toNat % tileHeight .decCMPR = 0 ∧
      s.regs.srcLen.toNat < requiredLength .decCMPR s.regs.width.toNat s.regs.height.toNat) ∧
    (let s := running 0xE 8 8 0xFE1 32 0
     s.regs.width.toNat % tileWidth .decCMPR = 0 ∧ s.regs.height.toNat % tileHeight .decCMPR = 0 ∧
      requiredLength .decCMPR s.regs.width.toNat s.regs.height.toNat ≤ s.regs.srcLen.toNat ∧
      s.platform.srcSpaceBytes < s.regs.srcBase.toNat + s.regs.srcLen.toNat) ∧
    (let s := running 0x1 8 4 0 32 0xF81
     s.regs.width.toNat % tileWidth .decI8 = 0 ∧ s.regs.height.toNat % tileHeight .decI8 = 0 ∧
      requiredLength .decI8 s.regs.width.toNat s.regs.height.toNat ≤ s.regs.srcLen.toNat ∧
      s.platform.dstSpaceBytes < s.regs.dstBase.toNat + s.regs.width.toNat * s.regs.height.toNat * 4) := by decide

/-- Each dimension 0 with the other one pixel past a multiple. -/
theorem witness_EmptyImageWithABadDimension :
    ((running 0xE 0 9 0 0 0).regs.width = 0 ∧ (running 0xE 0 9 0 0 0).regs.height.toNat % tileHeight .decCMPR ≠ 0) ∧
    ((running 3 5 0 0 0 0).regs.height = 0 ∧ (running 3 5 0 0 0 0).regs.width.toNat % tileWidth .decIA8 ≠ 0) := by decide

theorem witness_ErrorEndWritesNoByte :
    let t := raiseError .dimension (running 0xE 12 8 0 48 0)
    exec .decCMPR (running 0xE 12 8 0 48 0) = .next t ∧ t.regs.err = true :=
  ⟨(exec_eq _ _).trans (performCommand_error (by decide) (by decide)), by decide⟩

/-- An overlap that would pass the checks, one with a bad width, one with a reserved word; and buffers apart. -/
theorem witness_AliasedCommandIsRefused :
    (aliased.inSrcBuffer (true, 31) = true ∧ aliased.inDstBuffer (true, 31) = true ∧ aliased.busy = true) ∧
    (let s : State := { aliased with regs := regs 1 9 4 0 32 0 1 }
     s.inSrcBuffer (true, 0) = true ∧ s.inDstBuffer (true, 0) = true) ∧
    (let s : State := { aliased with regs := regs 4 8 4 0 32 0 1 }
     s.inSrcBuffer (true, 0) = true ∧ s.inDstBuffer (true, 0) = true) ∧
    State.reset.platform.plan = .separate := by decide

theorem witness_CommandFrame : apart.buffersAlias = false ∧ Instr.decI8 ≠ .decCMPR := by decide

theorem witness_CommandEndsWithANamedStatus :
    (running 1 8 4 0 32 0).buffersAlias = false ∧ apart.buffersAlias = false := by decide

theorem witness_RequiredLengthCountsTiles : 0 % tileWidth .decIA8 = 0 ∧ 8 % tileHeight .decIA8 = 0 := by decide

/-- V-PAL-9's colours and the extreme ones. -/
theorem witness_OpaqueBranchBlends : (0x0000#16).toNat < (0x0001#16).toNat ∧ (0x0000#16).toNat < (0xFFFF#16).toNat := by decide

/-- V-PAL-10's colours and equal ones. -/
theorem witness_PunchThroughBranchAverages : (0x0000#16).toNat ≤ (0x0001#16).toNat ∧ (0x1234#16).toNat ≤ (0x1234#16).toNat := by
  decide

/-- (c) and (d): opaque colours with a channel equal, for each channel; (e): equal entries; (f): a punch-through pair. -/
theorem witness_PaletteCornerCases :
    ((0x0000#16).toNat < (0x0001#16).toNat ∧ (buildPalette 0x0001#16 0x0000#16).p0.r = (buildPalette 0x0001#16 0x0000#16).p1.r ∧
      (buildPalette 0x0001#16 0x0000#16).p0.g = (buildPalette 0x0001#16 0x0000#16).p1.g) ∧
    ((0x0000#16).toNat < (0x0800#16).toNat ∧ (buildPalette 0x0800#16 0x0000#16).p0.b = (buildPalette 0x0800#16 0x0000#16).p1.b) ∧
    (buildPalette 0x1234#16 0x1234#16).p0 = (buildPalette 0x1234#16 0x1234#16).p1 ∧
    (0x0000#16).toNat ≤ (0x0000#16).toNat := by decide

theorem witness_IndexPairsFromTheTop : 0 < 4 ∧ 3 < 4 := by decide

theorem witness_TileScanIsABijection :
    (16 % tileWidth .decI8 = 0 ∧ 8 % tileHeight .decI8 = 0) ∧ (0 % tileWidth .decCMPR = 0 ∧ 8 % tileHeight .decCMPR = 0) := by
  decide

theorem witness_SubBlockSwizzleIsABijection : 16 % 8 = 0 ∧ 8 % 8 = 0 := by decide

/-- Each command accepts a one-tile image, whose corner pixels are in range. -/
theorem witness_DecI8WritesItsImage : Accepts .decI8 (running 1 8 4 0 32 0) ∧
    (0 < (running 1 8 4 0 32 0).regs.width.toNat ∧ 0 < (running 1 8 4 0 32 0).regs.height.toNat) ∧
    (7 < (running 1 8 4 0 32 0).regs.width.toNat ∧ 3 < (running 1 8 4 0 32 0).regs.height.toNat) :=
  ⟨accepts_iff.2 (by decide), by decide⟩

theorem witness_DecI4WritesItsImage : Accepts .decI4 (running 0 8 8 0 32 0) ∧
    (0 < (running 0 8 8 0 32 0).regs.width.toNat ∧ 0 < (running 0 8 8 0 32 0).regs.height.toNat) ∧
    (7 < (running 0 8 8 0 32 0).regs.width.toNat ∧ 7 < (running 0 8 8 0 32 0).regs.height.toNat) :=
  ⟨accepts_iff.2 (by decide), by decide⟩

theorem witness_DecIA4WritesItsImage : Accepts .decIA4 (running 2 8 4 0 32 0) ∧
    (0 < (running 2 8 4 0 32 0).regs.width.toNat ∧ 0 < (running 2 8 4 0 32 0).regs.height.toNat) ∧
    (7 < (running 2 8 4 0 32 0).regs.width.toNat ∧ 3 < (running 2 8 4 0 32 0).regs.height.toNat) :=
  ⟨accepts_iff.2 (by decide), by decide⟩

theorem witness_DecIA8WritesItsImage : Accepts .decIA8 (running 3 4 4 0 32 0) ∧
    (0 < (running 3 4 4 0 32 0).regs.width.toNat ∧ 0 < (running 3 4 4 0 32 0).regs.height.toNat) ∧
    (3 < (running 3 4 4 0 32 0).regs.width.toNat ∧ 3 < (running 3 4 4 0 32 0).regs.height.toNat) :=
  ⟨accepts_iff.2 (by decide), by decide⟩

theorem witness_DecCMPRWritesItsImage : Accepts .decCMPR (running 0xE 8 8 0 32 0) ∧
    (0 < (running 0xE 8 8 0 32 0).regs.width.toNat ∧ 0 < (running 0xE 8 8 0 32 0).regs.height.toNat) ∧
    (7 < (running 0xE 8 8 0 32 0).regs.width.toNat ∧ 7 < (running 0xE 8 8 0 32 0).regs.height.toNat) :=
  ⟨accepts_iff.2 (by decide), by decide⟩

/-- V-ZERO-1, V-ZERO-2 and V-ZERO-3, and a source buffer that leaves SRC. -/
theorem witness_EmptyImageWritesNothing :
    (let s := running 0xE 0 8 0 0 0
     s.regs.width.toNat % tileWidth .decCMPR = 0 ∧ s.regs.height.toNat % tileHeight .decCMPR = 0 ∧ s.regs.width = 0 ∧
      s.regs.srcBase.toNat + s.regs.srcLen.toNat ≤ s.platform.srcSpaceBytes ∧
      s.regs.dstBase.toNat ≤ s.platform.dstSpaceBytes) ∧
    (let s := running 0x0 8 0 0 0x1000 0x1000
     s.regs.width.toNat % tileWidth .decI4 = 0 ∧ s.regs.height.toNat % tileHeight .decI4 = 0 ∧ s.regs.height = 0 ∧
      s.regs.srcBase.toNat + s.regs.srcLen.toNat ≤ s.platform.srcSpaceBytes ∧
      s.regs.dstBase.toNat ≤ s.platform.dstSpaceBytes) ∧
    (let s := running 0x0 0 0 0 0 0x1001
     s.regs.width = 0 ∧ s.platform.dstSpaceBytes < s.regs.dstBase.toNat) ∧
    (let s := running 0x0 0 0 0 0x1001 0
     s.regs.width = 0 ∧ s.platform.srcSpaceBytes < s.regs.srcBase.toNat + s.regs.srcLen.toNat) := by decide

/-- The same image at other bases, with a longer source buffer (V-LONG-1). -/
theorem witness_OutputDependsOnTheRequiredBytesAlone :
    Accepts .decI8 (running 1 8 4 0 32 0) ∧ Accepts .decI8 (running 1 8 4 0x100 100 0xF80) ∧
    (running 1 8 4 0 32 0).regs.width = (running 1 8 4 0x100 100 0xF80).regs.width ∧
    (running 1 8 4 0 32 0).regs.height = (running 1 8 4 0x100 100 0xF80).regs.height ∧
    ∀ k, k < requiredLength .decI8 8 4 → (running 1 8 4 0 32 0).srcByte k = (running 1 8 4 0x100 100 0xF80).srcByte k :=
  ⟨accepts_iff.2 (by decide), accepts_iff.2 (by decide), by decide, by decide, fun _ _ => rfl⟩

/-- After an error end, and after a successful one. -/
theorem witness_StartedAgainGivesTheSameOutcome :
    ((running 0xE 12 8 0 48 0).buffersAlias = false ∧
      exec .decCMPR (running 0xE 12 8 0 48 0) = .next (raiseError .dimension (running 0xE 12 8 0 48 0))) ∧
    ((running 1 8 4 0 32 0).buffersAlias = false ∧ ∃ t : State, exec .decI8 (running 1 8 4 0 32 0) = .next t) :=
  ⟨⟨by decide, (exec_eq _ _).trans (performCommand_error (by decide) (by decide))⟩, by decide, _,
    (exec_eq _ _).trans (performCommand_accepts (accepts_iff.2 (by decide)))⟩

/-- V-BAND-I8's cut, and the two empty cuts. -/
theorem witness_TwoBandsMakeOneImage :
    let s := running 1 16 8 0 128 0
    Accepts .decI8 s ∧
    (∀ r0 ∈ [0, 4, 8], r0 % tileHeight .decI8 = 0 ∧ r0 ≤ s.regs.height.toNat ∧
      s.regs.srcBase.toNat + requiredLength .decI8 s.regs.width.toNat r0 < 2 ^ 32 ∧
      s.regs.dstBase.toNat + r0 * s.regs.width.toNat * 4 < 2 ^ 32) :=
  ⟨accepts_iff.2 (by decide), by decide⟩

/-- The smallest and the largest platform. -/
theorem witness_ResetMeetsTheInvariant :
    Platform.wf { srcSpaceBytes := 1, dstSpaceBytes := 1, plan := .separate, regBase := 0, instances := 1 } ∧ Platform.standard.wf := by decide

/-- The state after reset, with an operation to do, meets the invariant and answers a next state. -/
theorem witness_EveryStepKeepsTheInvariant :
    let s : State := { State.reset with host := { ops := [.wr Platform.standard .width 1], turns := [], replies := [], last := none } }
    s.Inv ∧ step s = .next (hostStep (.wr Platform.standard .width 1) s.afterOp) :=
  ⟨⟨by decide, ⟨by decide, by decide, by decide, by decide, by decide, by decide⟩,
    ⟨by decide, by decide, by decide, by decide, by decide, by decide⟩, ⟨Memory.wf_nil, Memory.wf_nil⟩, nofun, nofun⟩,
    rfl⟩

end Sys2Proof.Tests
end

/-! The invariant (R10, R30, R31, R41, R103): the launch state meets it, and Perform and every host operation keep it. -/

namespace Sys2Proof.Machine

/-! STATUS words. -/

/-- `statusWord` holds each field where R30 reads it, and 0 in the reserved bits (128 words). -/
theorem statusWord_fields : ∀ (busy done err : Bool) (code : BitVec 4),
    (statusWord busy done err code).getLsbD 0 = busy ∧ (statusWord busy done err code).getLsbD 1 = done ∧
      (statusWord busy done err code).getLsbD 2 = err ∧ (statusWord busy done err code).getLsbD 3 = false ∧
      (statusWord busy done err code).extractLsb' 4 4 = code ∧ (statusWord busy done err code).toNat < 256 := by decide

/-- Whether a STATUS is legal depends on its word alone. -/
theorem Regs.StatusLegal.of_status_eq {r q : Regs} (h : r.StatusLegal) (e : q.status = r.status) : q.StatusLegal := by
  obtain ⟨notBoth, busyAlone, codeWithErr, codeNamed, bit3, high⟩ := h
  unfold Regs.busy Regs.done Regs.err Regs.errCode at *
  rw [← e] at *
  exact ⟨notBoth, busyAlone, codeWithErr, codeNamed, bit3, high⟩

/-- The STATUS word of legal fields is legal: R30 and R31 of the fields, the reserved bits being 0 by construction. -/
theorem statusLegal_of_fields {r : Regs} {busy done err : Bool} {code : BitVec 4} (e : r.status = statusWord busy done err code)
    (notBoth : ¬ (done = true ∧ err = true)) (busyAlone : busy = true → done = false ∧ err = false ∧ code = 0)
    (codeWithErr : code ≠ 0 ↔ err = true) (codeNamed : code.toNat ≤ 4) : r.StatusLegal := by
  obtain ⟨hbusy, hdone, herr, hbit3, hcode, hhigh⟩ := statusWord_fields busy done err code
  rw [← e] at hbusy hdone herr hbit3 hcode hhigh
  subst hbusy hdone herr hcode
  exact ⟨notBoth, busyAlone, codeWithErr, codeNamed, hbit3, hhigh⟩

theorem statusLegal_reset : Regs.reset.StatusLegal :=
  statusLegal_of_fields (busy := false) (done := false) (err := false) (code := 0) rfl (by decide) (by decide) (by decide) (by decide)

theorem statusLegal_started {r : Regs} (e : r.status = statusStarted) : r.StatusLegal :=
  statusLegal_of_fields e (by decide) (by decide) (by decide) (by decide)

theorem statusLegal_done {r : Regs} (e : r.status = statusDone) : r.StatusLegal :=
  statusLegal_of_fields e (by decide) (by decide) (by decide) (by decide)

theorem statusLegal_error {r : Regs} {c : ErrorCode} (e : r.status = statusError c) : r.StatusLegal := by
  refine statusLegal_of_fields e (by decide) nofun ?_ ?_ <;> cases c <;> decide

/-- A register write leaves STATUS as it was, or is the start of a command (R24 to R30). -/
theorem writeRegister_statusLegal {s : State} (h : s.regs.StatusLegal) (r : Register) (v : Word) :
    (writeRegister r v s).regs.StatusLegal := by
  cases r with
  | cmd => exact statusLegal_started rfl
  | width | height | srcBase | srcLen | dstBase | status => exact h.of_status_eq rfl

/-! The registers and the internal state after a host operation. -/

/-- At BUSY = 0 a bus write at a register's address is the register write (R23 to R30). -/
theorem hostStep_busWrite_idle {s : State} (hb : s.busy = false) (r : Register) (v : Word) :
    hostStep (.busWrite (s.platform.regBase + r.offset) 4 v) s = writeRegister r v s := by
  simp [hostStep, hostBusWrite, hb]

/-- A bus write is refused or a hazard, which leave the registers and the internal state, or it is a register write at BUSY = 0. -/
theorem hostBusWrite_cases (addr bytes : Nat) (v : Word) (s : State) :
    ((hostBusWrite addr bytes v s).regs = s.regs ∧ (hostBusWrite addr bytes v s).scratch = s.scratch) ∨
    (s.busy = false ∧ ∃ r, accessedRegister s.platform addr bytes = some r ∧ hostBusWrite addr bytes v s = writeRegister r v s) := by
  unfold hostBusWrite
  split
  · exact .inl ⟨rfl, rfl⟩
  · rename_i r hr
    split_ifs with hb
    · exact .inl ⟨rfl, rfl⟩
    · exact .inr ⟨by simpa using hb, r, hr, rfl⟩

theorem hostReadLoc_regs_scratch (l : Loc) (s : State) :
    (hostReadLoc l s).regs = s.regs ∧ (hostReadLoc l s).scratch = s.scratch := by
  rcases hostReadLoc_cases l s with h | h <;> rw [h] <;> exact ⟨rfl, rfl⟩

/-- Only a register write at BUSY = 0 and a reset touch the registers or the internal state (R254, R260, R263). -/
theorem hostStep_regs_scratch_cases (op : HostOp) (s : State) :
    ((hostStep op s).regs = s.regs ∧ (hostStep op s).scratch = s.scratch) ∨
    (s.busy = false ∧ ∃ addr bytes v r, op = .busWrite addr bytes v ∧ accessedRegister s.platform addr bytes = some r ∧
      hostStep op s = writeRegister r v s) ∨
    (op = .reset ∧ (hostStep op s).regs = Regs.reset ∧ (hostStep op s).scratch.InRange) := by
  cases op with
  | busWrite addr bytes v =>
    exact (hostBusWrite_cases addr bytes v s).imp_right fun ⟨hb, r, hr, h⟩ =>
      .inl ⟨hb, addr, bytes, v, r, rfl, hr, h⟩
  | busRead addr bytes =>
    simp only [hostStep, hostBusRead]
    split <;> exact .inl ⟨rfl, rfl⟩
  | wait =>
    simp only [hostStep, hostWait]
    split_ifs <;> exact .inl ⟨rfl, rfl⟩
  | loadSrc a bs =>
    obtain ⟨hregs, hscratch, -⟩ := hostLoadSrc_keeps a bs s
    exact .inl ⟨hregs, hscratch⟩
  | readSrc a =>
    simp only [hostStep, hostReadSrc]
    split_ifs
    · exact .inl (hostReadLoc_regs_scratch _ s)
    · exact .inl ⟨rfl, rfl⟩
  | writeDst a b =>
    simp only [hostStep, hostWriteDst]
    split_ifs
    · exact .inl ⟨hostWriteLoc_regs _ b s, hostWriteLoc_scratch _ b s⟩
    · exact .inl ⟨rfl, rfl⟩
  | readDst a =>
    simp only [hostStep, hostReadDst]
    split_ifs
    · exact .inl (hostReadLoc_regs_scratch _ s)
    · exact .inl ⟨rfl, rfl⟩
  | reset =>
    obtain ⟨hregs, -, -, -, hscratch⟩ := hostReset_keeps s
    exact .inr (.inr ⟨rfl, hregs, hscratch⟩)

/-! What keeps the invariant. -/

theorem State.Inv.memOk {s : State} (h : s.Inv) : MemOk s := ⟨h.memWf, h.memInSpaces⟩

/-- The invariant does not read the host's side, so taking a turn keeps it. -/
theorem State.Inv.afterTurn {s : State} (h : s.Inv) : s.afterTurn.Inv :=
  ⟨h.platform, h.status, h.scratch, h.memWf, h.memInSpaces⟩

theorem State.Inv.afterOp {s : State} (h : s.Inv) : s.afterOp.Inv :=
  ⟨h.platform, h.status, h.scratch, h.memWf, h.memInSpaces⟩

theorem State.Inv.refuse {s : State} (h : s.Inv) : s.refuse.Inv :=
  ⟨h.platform, h.status, h.scratch, h.memWf, h.memInSpaces⟩

theorem State.Inv.raiseError {s : State} (h : s.Inv) (e : ErrorCode) : (raiseError e s).Inv :=
  ⟨h.platform, statusLegal_error rfl, h.scratch, h.memWf, h.memInSpaces⟩

/-- A decode whose checks passed writes only the destination buffer, which lies in DST, and leaves its counters in range. -/
theorem State.Inv.decoded {s : State} (h : s.Inv) {i : Instr} (ha : Accepts i s) :
    (endCommand (decodeImage i s.operands s)).Inv := by
  have hd := decodeImage_result ha
  exact ⟨hd.surroundings.platform ▸ h.platform, statusLegal_done rfl, hd.inRange h.scratch, hd.memWf h.memWf,
    hd.memInSpaces h.memInSpaces⟩

theorem State.Inv.perform {s t : State} (h : s.Inv) (ht : perform s = .next t) : t.Inv := by
  rcases perform_cases s with ⟨-, hp⟩ | ⟨-, e, -, hp⟩ | ⟨i, -, ha, hp⟩ <;> cases hp.symm.trans ht
  · exact h.refuse
  · exact h.raiseError e
  · exact h.decoded ha

theorem State.Inv.hostStep {s : State} (h : s.Inv) (op : HostOp) : (hostStep op s).Inv := by
  obtain ⟨hrec, hmem⟩ := hostStep_keeps op s
  obtain ⟨hwf, hin⟩ := hmem h.memOk
  have hplatform : (Machine.hostStep op s).platform.wf := hrec.platform ▸ h.platform
  rcases hostStep_regs_scratch_cases op s with ⟨hr, hc⟩ | ⟨-, -, -, v, r, -, -, hw⟩ | ⟨-, hr, hc⟩
  · exact ⟨hplatform, hr ▸ h.status, hc ▸ h.scratch, hwf, hin⟩
  · have hc := (writeRegister_keeps r v s).1
    exact ⟨hplatform, hw ▸ writeRegister_statusLegal h.status r v, hw ▸ hc ▸ h.scratch, hwf, hin⟩
  · exact ⟨hplatform, hr ▸ statusLegal_reset, hc, hwf, hin⟩

theorem State.Inv.step {s t : State} (h : s.Inv) (ht : step s = .next t) : t.Inv := by
  rcases step_cases s with ⟨-, -, hs⟩ | ⟨op, ops, -, -, -, hs⟩ | ⟨op, ops, -, -, hs⟩ | ⟨-, -, hs⟩ <;> rw [hs] at ht
  · exact h.afterTurn.perform ht
  · cases ht
    exact h.afterTurn.afterOp.hostStep op
  · cases ht
    exact h.afterOp.hostStep op
  · cases ht

/-- Settles O54: a step is Perform, a host operation or the stop, and each of the first two keeps the invariant. -/
theorem everyStepKeepsTheInvariant : Obligations.EveryStepKeepsTheInvariant := by
  intro s t hinv hstep
  exact hinv.step hstep

theorem scratch_reset_inRange : Scratch.reset.InRange := by
  constructor <;> decide

/-- Settles O53: STATUS is 0, the internal state is all zero (log 4), and no byte is listed. -/
theorem resetMeetsTheInvariant : Obligations.ResetMeetsTheInvariant := by
  intro p hp
  exact ⟨hp, statusLegal_reset, scratch_reset_inRange, ⟨Memory.wf_nil, Memory.wf_nil⟩,
    ⟨fun _ hc => absurd hc List.not_mem_nil, fun _ hc => absurd hc List.not_mem_nil⟩⟩

/-! The register block (R23). -/

/-- Settles O11: the offsets by `registerAt`'s own table, the accesses by `accessedRegister_eq_some`, and the write to STATUS as the
register write that ignores its value. -/
theorem registerBlockMap : Obligations.RegisterBlockMap := by
  refine ⟨fun offset => ?_, fun p addr bytes r => accessedRegister_eq_some, fun s v hb => hostStep_busWrite_idle hb .status v⟩
  split
  case h_8 => simp_all [registerAt]
  all_goals rfl

end Sys2Proof.Machine

namespace Sys2Proof.Machine

/-! The two buffers (R51, R52, R257). -/

/-- The `k`-th byte of a range that is cut off where its space ends, as an address (R41, log 28). -/
theorem exists_lt_min_add_iff {base len space : Nat} {P : Nat → Prop} :
    (∃ k < min len (space - base), P (base + k)) ↔ ∃ a, a < space ∧ base ≤ a ∧ a < base + len ∧ P a := by
  constructor
  · rintro ⟨k, hk, hP⟩
    exact ⟨base + k, by omega, by omega, by omega, hP⟩
  · rintro ⟨a, hspace, hbase, hlen, hP⟩
    obtain ⟨k, rfl⟩ := Nat.exists_eq_add_of_le hbase
    exact ⟨k, by omega, hP⟩

/-- Settles O17: a buffer's bytes counted from its base are those at the addresses of its range, and `buffersAlias_iff` is the test
for aliasing. -/
theorem buffersAreTheBytesOfTheirRanges : Obligations.BuffersAreTheBytesOfTheirRanges := by
  intro s
  exact ⟨fun l => inSrcBuffer_iff.trans (exists_lt_min_add_iff (P := fun a => l = srcLoc s.platform a)),
    fun l => inDstBuffer_iff.trans (exists_lt_min_add_iff (P := fun a => l = dstLoc s.platform a)), buffersAlias_iff⟩

/-! Refusals of host operations (R32, R33, R41, R260). -/

@[simp] theorem hostWriteLoc_refused (l : Loc) (b : Byte) (s : State) : (hostWriteLoc l b s).refused = s.refused := by
  unfold hostWriteLoc; split_ifs <;> simp

@[simp] theorem hostReadLoc_refused (l : Loc) (s : State) : (hostReadLoc l s).refused = s.refused := by
  rcases hostReadLoc_cases l s with h | h <;> rw [h] <;> rfl

@[simp] theorem hostWait_refused (s : State) : (hostWait s).refused = s.refused := by
  unfold hostWait; split_ifs <;> rfl

theorem hostBusWrite_refused (addr bytes : Nat) (v : Word) (s : State) :
    (hostBusWrite addr bytes v s).refused = (s.refused || !(accessedRegister s.platform addr bytes).isSome) := by
  unfold hostBusWrite
  cases accessedRegister s.platform addr bytes with
  | none => simp
  | some r =>
    obtain ⟨-, -, -, -, hrefused, -⟩ := writeRegister_keeps r v s
    cases s.busy <;> simp [hrefused]

theorem hostBusRead_refused (addr bytes : Nat) (s : State) :
    (hostBusRead addr bytes s).refused = (s.refused || !(accessedRegister s.platform addr bytes).isSome) := by
  unfold hostBusRead
  cases accessedRegister s.platform addr bytes <;> simp

/-- A host access is done under a test of its address, and refused otherwise (R41, log 14). -/
theorem ite_refuse_refused {s t : State} {c : Prop} [Decidable c] (h : t.refused = s.refused) :
    (if c then t else s.refuse).refused = (s.refused || !decide c) := by
  split_ifs with hc <;> simp [hc, h]

theorem hostWriteSrc_refused (a : Nat) (b : Byte) (s : State) :
    (hostWriteSrc a b s).refused = (s.refused || !decide (a < s.platform.srcSpaceBytes)) :=
  ite_refuse_refused (hostWriteLoc_refused _ b s)

theorem HostOp.loadSrc_wf_iff {p : Platform} {a : Nat} {bs : List Byte} :
    (HostOp.loadSrc a bs).wf p = true ↔ bs = [] ∨ a + bs.length ≤ p.srcSpaceBytes := by
  simp [HostOp.wf]

/-- LOADSRC is well formed when each of its bytes lies in SRC (log 13). -/
theorem HostOp.loadSrc_cons_wf (p : Platform) (a : Nat) (b : Byte) (bs : List Byte) :
    (HostOp.loadSrc a (b :: bs)).wf p = (decide (a < p.srcSpaceBytes) && (HostOp.loadSrc (a + 1) bs).wf p) := by
  rw [Bool.eq_iff_iff, Bool.and_eq_true, decide_eq_true_iff, HostOp.loadSrc_wf_iff, HostOp.loadSrc_wf_iff]
  cases bs with
  | nil => simp
  | cons c cs =>
    simp only [List.length_cons, reduceCtorEq, false_or]
    omega

theorem hostLoadSrc_refused (a : Nat) (bs : List Byte) (s : State) :
    (hostLoadSrc a bs s).refused = (s.refused || !(HostOp.loadSrc a bs).wf s.platform) := by
  induction bs generalizing a s with
  | nil => simp [hostLoadSrc, HostOp.wf]
  | cons b bs ih =>
    obtain ⟨-, -, -, -, hrec, -⟩ := hostWriteSrc_keeps a b s
    rw [hostLoadSrc, ih, hostWriteSrc_refused, hrec.platform, HostOp.loadSrc_cons_wf, Bool.not_and, Bool.or_assoc]

/-- What a host operation but a reset does to REFUSED: it is set exactly when the operation is ill formed. -/
theorem hostStep_refused {op : HostOp} (h : op ≠ .reset) (s : State) :
    (hostStep op s).refused = (s.refused || !op.wf s.platform) := by
  cases op with
  | busWrite addr bytes v => exact hostBusWrite_refused addr bytes v s
  | busRead addr bytes => exact hostBusRead_refused addr bytes s
  | wait => simp [hostStep, HostOp.wf]
  | loadSrc a bs => exact hostLoadSrc_refused a bs s
  | readSrc a => exact ite_refuse_refused (hostReadLoc_refused _ s)
  | writeDst a b => exact ite_refuse_refused (hostWriteLoc_refused _ b s)
  | readDst a => exact ite_refuse_refused (hostReadLoc_refused _ s)
  | reset => exact absurd rfl h

/-- Settles O22, by `hostStep_refused`; a reset is always well formed. -/
theorem illFormedHostOperationsAreRefused : Obligations.IllFormedHostOperationsAreRefused := by
  intro s op
  refine ⟨fun hop hwf => by simp [hostStep_refused hop, hwf], fun hwf => ?_⟩
  have hop : op ≠ .reset := by
    rintro rfl
    cases hwf
  simp [hostStep_refused hop, hwf]

/-! What a step keeps recorded (R42). -/

/-- Perform ends with a refusal, an error or a decode, and none of them clears FAULTS or REFUSED. -/
theorem perform_recorded {s t : State} (ht : perform s = .next t) : Recorded s t := by
  rcases perform_cases s with ⟨-, hp⟩ | ⟨-, e, -, hp⟩ | ⟨i, -, ha, hp⟩ <;> cases hp.symm.trans ht
  · exact recorded_refuse s
  · exact Recorded.of_eq rfl rfl rfl
  · obtain ⟨hfaults, hrefused, hplatform, -⟩ := (decodeImage_result ha).surroundings
    exact Recorded.of_eq hplatform hfaults hrefused

theorem afterTurn_recorded (s : State) : Recorded s s.afterTurn := Recorded.of_eq rfl rfl rfl

theorem afterOp_recorded (s : State) : Recorded s s.afterOp := Recorded.of_eq rfl rfl rfl

theorem hostStep_recorded (op : HostOp) (s : State) : Recorded s (hostStep op s) := (hostStep_keeps op s).1

theorem step_recorded {s t : State} (ht : step s = .next t) : Recorded s t := by
  rcases step_cases s with ⟨-, -, hs⟩ | ⟨op, ops, -, -, -, hs⟩ | ⟨op, ops, -, -, hs⟩ | ⟨-, -, hs⟩ <;> rw [hs] at ht
  · exact (afterTurn_recorded s).trans (perform_recorded ht)
  · cases ht
    exact ((afterTurn_recorded s).trans (afterOp_recorded _)).trans (hostStep_recorded op _)
  · cases ht
    exact (afterOp_recorded s).trans (hostStep_recorded op _)
  · cases ht

/-- Settles O24, by `step_recorded`: Perform and every host operation only add to what is recorded. -/
theorem recordedFaultsAndRefusalsStay : Obligations.RecordedFaultsAndRefusalsStay := by
  intro s t hstep
  obtain ⟨hplatform, hfaults, hrefused⟩ := step_recorded hstep
  exact ⟨hfaults, hrefused, hplatform⟩

/-! Operand registers (R25 to R29). -/

/-- A bus read at a register's address gives the register's value, busy or not (R259). -/
theorem hostStep_busRead (r : Register) (s : State) :
    hostStep (.busRead (s.platform.regBase + r.offset) 4) s = s.reply (.word (s.regs.get r)) := by
  simp [hostStep, hostBusRead]

/-- The register block after a write to an operand register (R25 to R29). -/
theorem writeRegister_get {r : Register} (hcmd : r ≠ .cmd) (hstatus : r ≠ .status) (v : Word) (s : State) (q : Register) :
    (writeRegister r v s).regs.get q = if q = r then v else s.regs.get q := by
  cases r with
  | cmd => exact absurd rfl hcmd
  | status => exact absurd rfl hstatus
  | width | height | srcBase | srcLen | dstBase => cases q <;> rfl

/-- A register write touches the register block alone. -/
theorem writeRegister_eq (r : Register) (v : Word) (s : State) :
    writeRegister r v s = { s with regs := (writeRegister r v s).regs } := by
  cases r <;> rfl

/-- Settles O10: the write is the register write, and the read after it is of the same register on the same platform. -/
theorem operandRegisterReadsBack : Obligations.OperandRegisterReadsBack := by
  intro s r v hb hcmd hstatus
  have hwrite : hostStep (.wr s.platform r v) s = writeRegister r v s := hostStep_busWrite_idle hb r v
  have hget := writeRegister_get hcmd hstatus v s
  obtain ⟨-, -, -, -, -, hplatform, -, -⟩ := writeRegister_keeps r v s
  have hread := hostStep_busRead r (writeRegister r v s)
  rw [hplatform, hget, if_pos rfl] at hread
  simp only [hwrite]
  exact ⟨hread, fun q hq => (hget q).trans (if_neg hq), writeRegister_eq r v s⟩

/-! Accesses that name no register (R32, R33). -/

theorem Register.offset_lt (r : Register) : r.offset < 0x1C := by cases r <;> decide

theorem Register.offset_aligned (r : Register) : r.offset % 4 = 0 := by cases r <;> rfl

theorem accessedRegister_eq_none (p : Platform) {offset bytes : Nat} (h : 0x1C ≤ offset ∨ offset % 4 ≠ 0 ∨ bytes ≠ 4) :
    accessedRegister p (p.regBase + offset) bytes = none := by
  refine Option.eq_none_iff_forall_ne_some.2 fun r hr => ?_
  obtain ⟨hbytes, haddr⟩ := accessedRegister_eq_some.1 hr
  have hlt := r.offset_lt
  have haligned := r.offset_aligned
  omega

/-- Settles O13: such an access names no register, and both bus operations then refuse. -/
theorem unlistedAccessIsRefused : Obligations.UnlistedAccessIsRefused := by
  intro s offset bytes v h
  have hnone := accessedRegister_eq_none s.platform h
  simp [hostStep, hostBusWrite, hostBusRead, hnone, State.refuse]

/-! Memory accesses at BUSY = 0 (R258). -/

theorem hostWriteLoc_idle {s : State} (hb : s.busy = false) (l : Loc) (b : Byte) : hostWriteLoc l b s = s.writeLoc l b := by
  simp [hostWriteLoc, hb]

theorem hostReadLoc_idle {s : State} (hb : s.busy = false) (l : Loc) : hostReadLoc l s = s.reply (.byte (s.readLoc l)) := by
  simp [hostReadLoc, hb]

/-! A host access to one byte inside its space is an access to that byte's home (R41, R50). -/

theorem hostStep_loadSrc_byte {s : State} {a : Nat} (h : a < s.platform.srcSpaceBytes) (b : Byte) :
    hostStep (.loadSrc a [b]) s = hostWriteLoc (srcLoc s.platform a) b s := if_pos h

theorem hostStep_readSrc {s : State} {a : Nat} (h : a < s.platform.srcSpaceBytes) :
    hostStep (.readSrc a) s = hostReadLoc (srcLoc s.platform a) s := if_pos h

theorem hostStep_writeDst {s : State} {a : Nat} (h : a < s.platform.dstSpaceBytes) (b : Byte) :
    hostStep (.writeDst a b) s = hostWriteLoc (dstLoc s.platform a) b s := if_pos h

theorem hostStep_readDst {s : State} {a : Nat} (h : a < s.platform.dstSpaceBytes) :
    hostStep (.readDst a) s = hostReadLoc (dstLoc s.platform a) s := if_pos h

theorem readSrc_writeSrc (s : State) (a : Nat) (b : Byte) : (s.writeSrc a b).readSrc a = b := by
  simp [State.readSrc, readLoc_writeLoc]

theorem readDst_writeDst (s : State) (a : Nat) (b : Byte) : (s.writeDst a b).readDst a = b := by
  simp [State.readDst, readLoc_writeLoc]

/-- Settles O19: inside its space an access reaches its byte, at BUSY = 0 without a hazard, and a write changes that byte alone. -/
theorem memoryAccessesWhenIdle : Obligations.MemoryAccessesWhenIdle := by
  intro s a b hb
  have hframe (l c : Loc) (hc : c ≠ l) : (s.writeLoc l b).readLoc c = s.readLoc c :=
    (readLoc_writeLoc s l c b).trans (if_neg hc)
  refine ⟨fun ha => ?_, fun ha => ?_⟩
  · exact ⟨(hostStep_loadSrc_byte ha b).trans (hostWriteLoc_idle hb _ b), readSrc_writeSrc s a b, hframe _,
      (hostStep_readSrc ha).trans (hostReadLoc_idle hb _)⟩
  · exact ⟨(hostStep_writeDst ha b).trans (hostWriteLoc_idle hb _ b), readDst_writeDst s a b, hframe _,
      (hostStep_readDst ha).trans (hostReadLoc_idle hb _)⟩

/-! The launch state (R23, R250). -/

theorem Regs.get_reset (r : Register) : Regs.reset.get r = 0x00000000#32 := by cases r <;> rfl

theorem Regs.reset_status_fields :
    Regs.reset.busy = false ∧ Regs.reset.done = false ∧ Regs.reset.err = false ∧ Regs.reset.errCode = 0#4 := by decide

/-- Settles O25: the launch state has `Regs.reset` in its register block and nothing recorded or listed. -/
theorem resetLeavesEveryRegisterZero : Obligations.ResetLeavesEveryRegisterZero := by
  intro p
  obtain ⟨hbusy, hdone, herr, hcode⟩ := Regs.reset_status_fields
  exact ⟨Regs.get_reset, hbusy, hdone, herr, hcode, rfl, rfl, rfl, rfl⟩

end Sys2Proof.Machine

namespace Sys2Proof.Machine

/-! How a command ends: refused, with an error, or completed (R105, R227, R257). -/

/-- The three ways a command ends (R101, R102, R257). -/
theorem exec_cases (i : Instr) (s : State) :
    (s.buffersAlias = true ∧ exec i s = .next s.refuse) ∨
    (s.buffersAlias = false ∧ ∃ e, checkOperands i s.operands s.platform = some e ∧ exec i s = .next (raiseError e s)) ∨
    (Accepts i s ∧ exec i s = .next (endCommand (decodeImage i s.operands s))) := by
  simp only [exec_eq]
  exact performCommand_cases i (decodeImage i) s

/-- What a command whose checks pass leaves (R105, R114 to R117, R253). The cursor is one of the tiled formats (R37, R116). -/
structure Completed (i : Instr) (s t : State) : Prop where
  regs : t.regs = { s.regs with status := statusDone }
  surroundings : SameSurroundings s t
  outside : OnlyDestinationWritten s t
  cursor : i ≠ .decCMPR → t.scratch.cursor = requiredLength i s.operands.w s.operands.h
  image : ∀ c r j, c < s.operands.w → r < s.operands.h → j < 4 →
    imageByte s t c r j = (imagePixel i s.operands.w s.srcByte c r).byte j

/-- The successful end touches STATUS alone, so it leaves what the decode made. -/
theorem DecodeResult.completed {i : Instr} {s u : State} (h : DecodeResult i s u) : Completed i s (endCommand u) := by
  obtain ⟨hfaults, hrefused, hplatform, hhost⟩ := h.surroundings
  refine ⟨?_, ⟨hfaults, hrefused, hplatform, hhost⟩, h.outside, fun hi => ?_, h.image⟩
  · rw [endCommand_regs, h.regs]
  · obtain ⟨-, -, hcursor⟩ := h.tiled hi
    exact hcursor

/-- Every command whose checks pass completes. -/
theorem exec_completed {i : Instr} {s : State} (h : Accepts i s) : ∃ t : State, exec i s = .next t ∧ Completed i s t :=
  ⟨_, (exec_eq i s).trans (performCommand_accepts h), (decodeImage_result h).completed⟩

/-! Collecting the result (R64, R258). -/

theorem Completed.busy {i : Instr} {s t : State} (h : Completed i s t) : t.busy = false := by
  unfold State.busy
  rw [h.regs]
  exact (statusWord_fields false true false 0#4).1

theorem Completed.done {i : Instr} {s t : State} (h : Completed i s t) : t.regs.done = true := by
  rw [h.regs]
  exact (statusWord_fields false true false 0#4).2.1

/-- A byte of a pixel of the destination image is a byte of DST, when the checks pass (R102, R114). -/
theorem Accepts.pixelByte_lt {i : Instr} {s : State} (h : Accepts i s) {c r j : Nat} (hc : c < s.operands.w)
    (hr : r < s.operands.h) (hj : j < 4) :
    s.regs.dstBase.toNat + pixelOffset s.operands.w c r + j < s.platform.dstSpaceBytes := by
  have hdst : s.regs.dstBase.toNat + s.operands.w * s.operands.h * 4 ≤ s.platform.dstSpaceBytes := h.destination
  have hoff := pixelOffset_lt hc hr hj
  omega

/-- Settles O20: the command has ended, so the host's read of a byte of DST is no hazard, and the byte is one that exists. -/
theorem resultIsCollectedAfterTheCommand : Obligations.ResultIsCollectedAfterTheCommand := by
  intro i s h
  obtain ⟨t, hexec, ht⟩ := exec_completed h
  refine ⟨t, hexec, ht.busy, ht.done, fun c r j hc hr hj => ?_⟩
  have hlt := h.pixelByte_lt hc hr hj
  rw [← ht.surroundings.platform] at hlt
  exact (hostStep_readDst hlt).trans (hostReadLoc_idle ht.busy _)

/-! Error ends (R61, R228). -/

/-- Settles O30: a refusal and an error end touch no memory, and a completed command has ERR = 0. -/
theorem errorEndWritesNoByte : Obligations.ErrorEndWritesNoByte := by
  intro i s t ht herr l
  rcases exec_cases i s with ⟨-, he⟩ | ⟨-, e, -, he⟩ | ⟨-, he⟩ <;> cases he.symm.trans ht
  · exact readLoc_congr rfl rfl l
  · exact readLoc_congr rfl rfl l
  · have hclear : statusDone.getLsbD 2 = false := (statusWord_fields false true false 0#4).2.2.1
    cases hclear.symm.trans herr

/-! DEC.IA8 (R54, R83, R184). -/

/-- The place of a pixel's pair of bytes in the 4x4-tiled source (R117), two bytes a pixel. -/
theorem sampleOffset_IA8 (w c r : Nat) :
    sampleOffset 4 4 16 w c r = 32 * ((r / 4) * (w / 4) + c / 4) + 2 * ((r % 4) * 4 + c % 4) := by
  unfold sampleOffset
  omega

theorem pixelIA8_byte_colour (alpha intensity : Byte) {j : Nat} (hj : j < 3) : (pixelIA8 alpha intensity).byte j = intensity := by
  match j, hj with
  | 0, _ => rfl
  | 1, _ => rfl
  | 2, _ => rfl

/-- Settles O47: DEC.IA8 completes, each pixel has the value of `imagePixel`, and its sample stands at the offset of R117. -/
theorem decIA8WritesItsImage : Obligations.DecIA8WritesItsImage := by
  intro s h
  obtain ⟨t, hexec, ht⟩ := exec_completed h
  refine ⟨t, hexec, ht.regs, ht.surroundings, ht.outside, ht.cursor (by decide), fun c r hc hr => ?_⟩
  have hpixel (j : Nat) (hj : j < 4) := ht.image c r j hc hr hj
  simp only [imagePixel, tileWidth, tileHeight, bitsPerPixel, sampleOffset_IA8] at hpixel
  exact ⟨fun j hj => (hpixel j (by omega)).trans (pixelIA8_byte_colour _ _ hj), hpixel 3 (by omega)⟩

/-! Buffers that share a byte (R68, R257). -/

theorem perform_of_aliased {s : State} (ha : s.buffersAlias = true) : perform s = .next s.refuse := by
  rcases perform_cases s with ⟨-, hp⟩ | ⟨hno, -⟩ | ⟨i, -, hacc, -⟩
  · exact hp
  · cases ha.symm.trans hno
  · cases ha.symm.trans hacc.noAlias

theorem exec_of_aliased {s : State} (ha : s.buffersAlias = true) (i : Instr) : exec i s = .next s.refuse :=
  (exec_eq i s).trans (performCommand_alias ha)

/-- A reset that abandons such a command records the refusal (log 11). -/
theorem hostReset_of_aliased {s : State} (ha : s.buffersAlias = true) (hb : s.busy = true) : (hostReset s).refused = true := by
  have habandon : abandonCommand s = s.refuse := if_pos ha
  simp [hostReset, hb, habandon, releaseAll]

/-- Settles O31: a common byte is what `buffersAlias` tests, and Perform, `exec` and the reset of a busy TXD each test it first. -/
theorem aliasedCommandIsRefused : Obligations.AliasedCommandIsRefused := by
  refine ⟨fun s hshared => ?_, fun s hplan l hl => ?_⟩
  · have ha := buffersAlias_iff.2 hshared
    exact ⟨perform_of_aliased ha, exec_of_aliased ha, hostReset_of_aliased ha⟩
  · cases (buffersAlias_separate hplan).symm.trans (buffersAlias_iff.2 ⟨l, hl⟩)

end Sys2Proof.Machine

/-! Command words (R70 to R75). -/

namespace Sys2Proof

theorem decode_encode (i : Instr) : decode (encode i) = .ok i := by cases i <;> rfl

/-- The words that select no command are those outside R71's table (R72). -/
theorem decode_of_not_listed {w : Word} (h4 : w ≠ 0x00000000#32) (h8 : w ≠ 0x00000001#32) (ha4 : w ≠ 0x00000002#32)
    (ha8 : w ≠ 0x00000003#32) (hc : w ≠ 0x0000000E#32) : decode w = .error .reservedWord := by
  unfold decode
  rw [if_neg h4, if_neg h8, if_neg ha4, if_neg ha8, if_neg hc]

theorem decode_eq_ok_iff {w : Word} {i : Instr} : decode w = .ok i ↔ w = encode i := by
  constructor
  · intro h
    unfold decode at h
    split_ifs at h with hw hw hw hw hw <;> cases h <;> exact hw
  · rintro rfl
    exact decode_encode i

/-- The TXD latches a 32-bit word as it is (R75). -/
theorem tableWord_toNat (w : Word) : tableWord 32 w.toNat = w := by
  rw [tableWord, Nat.mod_eq_of_lt w.isLt, BitVec.ofNat_toNat, BitVec.setWidth_eq]

theorem decodeTableWord_of_decode {w : Word} {i : Instr} (h : decode w = .ok i) : decodeTableWord 32 w.toNat = some i := by
  have hfits : w.toNat % 2 ^ 32 < 2 ^ 32 := Nat.mod_lt _ (by decide)
  rw [decodeTableWord, if_pos hfits, tableWord_toNat, h]

/-- Settles O1: the table's words are those of `encode`, and `decode` computes on the three others. -/
theorem commandWordsOfTheTable : Obligations.CommandWordsOfTheTable :=
  ⟨decode_encode .decI4, decode_encode .decI8, decode_encode .decIA4, decode_encode .decIA8, decode_encode .decCMPR,
    rfl, rfl, rfl⟩

/-- Settles O2: `decode` inverts `encode` both ways, and the table reader passes its word to `decode` unchanged. -/
theorem decodeInvertsEncode : Obligations.DecodeInvertsEncode :=
  ⟨fun _ _ => decode_eq_ok_iff, fun i _ => decodeTableWord_of_decode (decode_encode i)⟩

end Sys2Proof

namespace Sys2Proof.Machine

/-! Reserved words (R72, R222). -/

theorem statusStarted_eq : statusStarted = 0x00000001#32 := by decide

theorem statusDone_eq : statusDone = 0x00000002#32 := by decide

theorem statusError_unsupportedFormat : statusError .unsupportedFormat = 0x00000014#32 := by decide

theorem perform_of_reserved {s : State} (ha : s.buffersAlias = false) (hd : decode s.regs.cmd = .error .reservedWord) :
    perform s = .next (raiseError .unsupportedFormat s) := by
  simp [perform, hd, unlessAliased, ha]

/-- A start touches CMD and STATUS, so the buffers are those of before (R51, R52, R100). -/
theorem startCommand_buffersAlias (v : Word) (s : State) : (startCommand v s).buffersAlias = s.buffersAlias := rfl

/-- Settles O3: the bus write is the start of R100, and Perform of a word that `decode` rejects raises UNSUPPORTED_FORMAT. -/
theorem reservedWordEndsUnsupported : Obligations.ReservedWordEndsUnsupported := by
  intro s w hb ha h4 h8 ha4 ha8 hc
  have hstart : hostStep (.busWrite (s.platform.regBase + 0x14) 4 w) s = startCommand w s := hostStep_busWrite_idle hb .cmd w
  have hperform : perform (startCommand w s) = .next (raiseError .unsupportedFormat (startCommand w s)) :=
    perform_of_reserved ((startCommand_buffersAlias w s).trans ha) (decode_of_not_listed h4 h8 ha4 ha8 hc)
  simp only [startCommand, raiseError, State.setStatus, statusStarted_eq, statusError_unsupportedFormat] at hstart hperform
  exact ⟨hstart, hperform⟩

/-! Index pairs and palette entries (R35, R79, R85, R149). -/

theorem paletteIndex_toNat (q : Byte) (px : Nat) : (paletteIndex q px).toNat = (q.toNat >>> (6 - 2 * px)) &&& 3 := by
  rw [paletteIndex, BitVec.extractLsb'_toNat, Nat.shiftRight_zero, BitVec.toNat_ushiftRight]
  exact (Nat.and_two_pow_sub_one_eq_mod _ 2).symm

theorem Palette.byte_eq (p : Palette) (e : BitVec 2) {j : Nat} (hj : j < 4) : p.byte (4 * e.toNat + j) = (p.entry e).byte j := by
  have hentry : (4 * e.toNat + j) / 4 = e.toNat := by omega
  have hbyte : (4 * e.toNat + j) % 4 = j := by omega
  rw [Palette.byte, hentry, hbyte, BitVec.ofNat_toNat, BitVec.setWidth_eq]

/-- Settles O41: the general index, R79's sample byte, and the tables of `Palette.entry` and `Rgba.byte`. -/
theorem indexPairsFromTheTop : Obligations.IndexPairsFromTheTop :=
  ⟨fun q px _ => paletteIndex_toNat q px, by decide, fun _ => ⟨rfl, rfl, rfl, rfl⟩, fun _ => ⟨rfl, rfl, rfl, rfl⟩,
    fun p e _ hj => p.byte_eq e hj⟩

/-! The required length (R84). -/

theorem tile_bits (i : Instr) : tileWidth i * tileHeight i * bitsPerPixel i = 32 * 8 := by cases i <;> rfl

/-- Counted in bits, the required length is that of the pixels: an image is made of whole tiles. -/
theorem requiredLength_bits {i : Instr} {w h : Nat} (hw : w % tileWidth i = 0) (hh : h % tileHeight i = 0) :
    requiredLength i w h * 8 = w * h * bitsPerPixel i := by
  have hcols : tileWidth i * (w / tileWidth i) = w := Nat.mul_div_cancel' (Nat.dvd_of_mod_eq_zero hw)
  have hrows : tileHeight i * (h / tileHeight i) = h := Nat.mul_div_cancel' (Nat.dvd_of_mod_eq_zero hh)
  calc requiredLength i w h * 8
      = 32 * 8 * ((w / tileWidth i) * (h / tileHeight i)) := by rw [requiredLength_tiles hw hh]; ring
    _ = (tileWidth i * (w / tileWidth i)) * (tileHeight i * (h / tileHeight i)) * bitsPerPixel i := by rw [← tile_bits i]; ring
    _ = w * h * bitsPerPixel i := by rw [hcols, hrows]

/-- Settles O36, by `tile_bits` for one tile and `requiredLength_tiles` for the image. -/
theorem requiredLengthCountsTiles : Obligations.RequiredLengthCountsTiles := by
  intro i w h
  refine ⟨tile_bits i, fun hw hh => ⟨?_, requiredLength_bits hw hh⟩⟩
  rw [requiredLength_tiles hw hh]
  ring

/-! LOADSRC at BUSY = 0 (R41, R86, log 13). -/

theorem writeSrc_busy (s : State) (a : Nat) (b : Byte) : (s.writeSrc a b).busy = s.busy := by simp [State.busy]

/-- At BUSY = 0, LOADSRC inside SRC writes its first byte and goes on from the next address. -/
theorem hostLoadSrc_cons_idle {s : State} (hb : s.busy = false) {a : Nat} (ha : a < s.platform.srcSpaceBytes) (b : Byte)
    (bs : List Byte) : hostLoadSrc a (b :: bs) s = hostLoadSrc (a + 1) bs (s.writeSrc a b) := by
  have hwrite : hostWriteSrc a b s = s.writeSrc a b := (hostStep_loadSrc_byte ha b).trans (hostWriteLoc_idle hb _ b)
  rw [hostLoadSrc, hwrite]

/-- LOADSRC at BUSY = 0 meets no hazard, and leaves every byte but those at its addresses. -/
theorem hostLoadSrc_idle_frame {s : State} (hb : s.busy = false) {a : Nat} {bs : List Byte}
    (hfit : a + bs.length ≤ s.platform.srcSpaceBytes) :
    (hostLoadSrc a bs s).faults = s.faults ∧
    ∀ l : Loc, (∀ k < bs.length, l ≠ srcLoc s.platform (a + k)) → (hostLoadSrc a bs s).readLoc l = s.readLoc l := by
  induction bs generalizing a s with
  | nil => exact ⟨rfl, fun _ _ => rfl⟩
  | cons b bs ih =>
    rw [List.length_cons] at hfit
    have hplatform : (s.writeSrc a b).platform = s.platform := writeLoc_platform s _ b
    obtain ⟨hfaults, hframe⟩ := ih ((writeSrc_busy s a b).trans hb) (a := a + 1) (by rw [hplatform]; omega)
    rw [hostLoadSrc_cons_idle hb (by omega)]
    refine ⟨hfaults.trans (writeLoc_faults s _ b), fun l hl => ?_⟩
    have hrest : ∀ k < bs.length, l ≠ srcLoc (s.writeSrc a b).platform (a + 1 + k) := fun k hk => by
      rw [hplatform, Nat.add_assoc, Nat.add_comm 1 k]
      exact hl (k + 1) (Nat.succ_lt_succ hk)
    have hfirst : l ≠ srcLoc s.platform a := hl 0 (Nat.succ_pos _)
    rw [hframe l hrest, writeSrc_eq, readLoc_writeLoc, if_neg hfirst]

/-- The `k`-th byte of LOADSRC stands at the `k`-th address: no later byte is written over it. -/
theorem hostLoadSrc_idle_readSrc {s : State} (hb : s.busy = false) {a : Nat} {bs : List Byte}
    (hfit : a + bs.length ≤ s.platform.srcSpaceBytes) (k : Nat) (hk : k < bs.length) :
    (hostLoadSrc a bs s).readSrc (a + k) = bs[k] := by
  induction bs generalizing a s k with
  | nil => cases hk
  | cons b bs ih =>
    rw [List.length_cons] at hfit hk
    have hplatform : (s.writeSrc a b).platform = s.platform := writeLoc_platform s _ b
    have hidle : (s.writeSrc a b).busy = false := (writeSrc_busy s a b).trans hb
    have hfit' : a + 1 + bs.length ≤ (s.writeSrc a b).platform.srcSpaceBytes := by rw [hplatform]; omega
    rw [hostLoadSrc_cons_idle hb (by omega)]
    cases k with
    | zero =>
      obtain ⟨-, -, -, -, hrec, -⟩ := hostLoadSrc_keeps (a + 1) bs (s.writeSrc a b)
      have hlater := (hostLoadSrc_idle_frame hidle hfit').2 (srcLoc (s.writeSrc a b).platform a)
        fun k _ he => by rw [srcLoc_inj] at he; omega
      calc (hostLoadSrc (a + 1) bs (s.writeSrc a b)).readSrc a
          = (s.writeSrc a b).readSrc a := by rw [State.readSrc, hrec.platform, hlater, State.readSrc]
        _ = b := readSrc_writeSrc s a b
    | succ k =>
      rw [show a + (k + 1) = a + 1 + k by omega]
      exact ih hidle hfit' k (by omega)

/-- Settles O21: the bytes and the frame by induction over the list, the rest by what LOADSRC keeps in every state; it is well
formed, so nothing is refused. -/
theorem loadedSourceReadsBack : Obligations.LoadedSourceReadsBack := by
  intro s a bs hb hfit
  obtain ⟨hfaults, hframe⟩ := hostLoadSrc_idle_frame hb hfit
  obtain ⟨hregs, hscratch, hhost, hdraws, hrec, -⟩ := hostLoadSrc_keeps a bs s
  have hwf : (HostOp.loadSrc a bs).wf s.platform = true := HostOp.loadSrc_wf_iff.2 (.inr hfit)
  have hrefused : (hostLoadSrc a bs s).refused = s.refused := by simp [hostLoadSrc_refused, hwf]
  exact ⟨hostLoadSrc_idle_readSrc hb hfit, hframe, hregs, hscratch, hdraws, hfaults, hrefused, hrec.platform, hhost⟩

/-! DEC.I8, DEC.I4 and DEC.IA4 (R80 to R82): where the sample of a pixel stands (R117), and what its byte holds. -/

theorem sampleOffset_8x4 (w c r : Nat) :
    sampleOffset 8 4 8 w c r = 32 * ((r / 4) * (w / 8) + c / 8) + ((r % 4) * 8 + c % 8) := by
  unfold sampleOffset
  omega

theorem sampleOffset_8x8 (w c r : Nat) :
    sampleOffset 8 8 4 w c r = 32 * ((r / 8) * (w / 8) + c / 8) + ((r % 8) * 8 + c % 8) / 2 := by
  unfold sampleOffset
  omega

theorem expand4_toNat : ∀ n : BitVec 4, (expand4 n).toNat = 17 * n.toNat := by decide

theorem highNibble_toNat (b : Byte) : (highNibble b).toNat = b.toNat / 16 := by
  rw [highNibble, BitVec.extractLsb'_toNat, Nat.shiftRight_eq_div_pow]
  omega

theorem lowNibble_toNat (b : Byte) : (lowNibble b).toNat = b.toNat % 16 := by
  rw [lowNibble, BitVec.extractLsb'_toNat, Nat.shiftRight_zero]

theorem nibbleI4_toNat (b : Byte) (x : Nat) : (nibbleI4 b x).toNat = if x % 2 = 0 then b.toNat / 16 else b.toNat % 16 := by
  rw [nibbleI4, apply_ite BitVec.toNat, highNibble_toNat, lowNibble_toNat]

/-- A sample of one value makes all four bytes of its pixel (R80, R81). -/
theorem pixelI8_byte (v : Byte) {j : Nat} (hj : j < 4) : (pixelI8 v).byte j = v := by
  match j, hj with
  | 0, _ => rfl
  | 1, _ => rfl
  | 2, _ => rfl
  | 3, _ => rfl

theorem pixelIA8_byte_alpha (alpha intensity : Byte) : (pixelIA8 alpha intensity).byte 3 = alpha := rfl

/-- An I4 pixel is the I8 pixel of its expanded nibble (R112). -/
theorem pixelI4_eq (n : BitVec 4) : pixelI4 n = pixelI8 (expand4 n) := rfl

/-- An IA4 pixel is the IA8 pixel of its expanded nibbles (R112). -/
theorem pixelIA4_eq (b : Byte) : pixelIA4 b = pixelIA8 (expand4 (highNibble b)) (expand4 (lowNibble b)) := rfl

theorem imagePixel_I8 (w : Nat) (byte : Nat → Byte) (c r : Nat) :
    imagePixel .decI8 w byte c r = pixelI8 (byte (32 * ((r / 4) * (w / 8) + c / 8) + ((r % 4) * 8 + c % 8))) := by
  simp only [imagePixel, tileWidth, tileHeight, bitsPerPixel, sampleOffset_8x4]

theorem imagePixel_I4 (w : Nat) (byte : Nat → Byte) (c r : Nat) :
    imagePixel .decI4 w byte c r =
      pixelI8 (expand4 (nibbleI4 (byte (32 * ((r / 8) * (w / 8) + c / 8) + ((r % 8) * 8 + c % 8) / 2)) c)) := by
  simp only [imagePixel, tileWidth, tileHeight, bitsPerPixel, sampleOffset_8x8, pixelI4_eq]

theorem imagePixel_IA4 (w : Nat) (byte : Nat → Byte) (c r : Nat) :
    imagePixel .decIA4 w byte c r =
      let b := byte (32 * ((r / 4) * (w / 8) + c / 8) + ((r % 4) * 8 + c % 8))
      pixelIA8 (expand4 (highNibble b)) (expand4 (lowNibble b)) := by
  simp only [imagePixel, tileWidth, tileHeight, bitsPerPixel, sampleOffset_8x4, pixelIA4_eq]

/-- Settles O44: DEC.I8 completes, and each pixel is the grey of its byte. -/
theorem decI8WritesItsImage : Obligations.DecI8WritesItsImage := by
  intro s h
  obtain ⟨t, hexec, ht⟩ := exec_completed h
  refine ⟨t, hexec, statusDone_eq ▸ ht.regs, ht.surroundings, ht.outside, ht.cursor (by decide), fun c r hc hr j hj => ?_⟩
  have hbyte := ht.image c r j hc hr hj
  rw [imagePixel_I8, pixelI8_byte _ hj] at hbyte
  exact hbyte

/-- Settles O45: DEC.I4 completes, and each pixel is the grey of its expanded nibble (R112). -/
theorem decI4WritesItsImage : Obligations.DecI4WritesItsImage := by
  intro s h
  obtain ⟨t, hexec, ht⟩ := exec_completed h
  refine ⟨t, hexec, statusDone_eq ▸ ht.regs, ht.surroundings, ht.outside, ht.cursor (by decide), fun c r hc hr j hj => ?_⟩
  have hbyte := ht.image c r j hc hr hj
  rw [imagePixel_I4, pixelI8_byte _ hj] at hbyte
  rw [hbyte, expand4_toNat, nibbleI4_toNat]
  rfl

/-- Settles O46: DEC.IA4 completes, and each pixel has the bytes of an IA8 pixel of the expanded nibbles (R112). -/
theorem decIA4WritesItsImage : Obligations.DecIA4WritesItsImage := by
  intro s h
  obtain ⟨t, hexec, ht⟩ := exec_completed h
  refine ⟨t, hexec, statusDone_eq ▸ ht.regs, ht.surroundings, ht.outside, ht.cursor (by decide), fun c r hc hr =>
    ⟨fun j hj => ?_, ?_⟩⟩
  · have hcolour := ht.image c r j hc hr (by omega)
    rw [imagePixel_IA4, pixelIA8_byte_colour _ _ hj] at hcolour
    rw [hcolour, expand4_toNat, lowNibble_toNat]
    rfl
  · have halpha := ht.image c r 3 hc hr (by omega)
    rw [imagePixel_IA4, pixelIA8_byte_alpha] at halpha
    rw [halpha, expand4_toNat, highNibble_toNat]
    rfl

end Sys2Proof.Machine

namespace Sys2Proof.Machine

/-! The frame and the end of a command (R101, R105, R221, R227). -/

/-- Settles O32: a refusal and an error end touch no memory and no internal state, and a completed decode has `DecodeResult`. -/
theorem commandFrame : Obligations.CommandFrame := by
  intro i s
  rcases exec_cases i s with ⟨ha, he⟩ | ⟨-, e, -, he⟩ | ⟨hacc, he⟩
  · refine ⟨_, he, rfl, rfl, rfl, rfl, fun hno => ?_, fun _ _ => rfl, fun _ => ⟨rfl, rfl⟩, fun _ => rfl⟩
    cases hno.symm.trans ha
  · exact ⟨_, he, rfl, rfl, rfl, rfl, fun _ => rfl, fun _ _ => rfl, fun _ => ⟨rfl, rfl⟩, fun _ => rfl⟩
  · have hd := decodeImage_result hacc
    obtain ⟨hfaults, hrefused, hplatform, hhost⟩ := hd.surroundings
    refine ⟨_, he, ?_, hfaults, hplatform, hhost, fun _ => hrefused, hd.outside, fun hi => ?_, hd.compressed⟩
    · rw [endCommand_regs, hd.regs]
    · obtain ⟨hpal, hsub, -⟩ := hd.tiled hi
      exact ⟨hpal, hsub⟩

theorem statusError_dimension : statusError .dimension = 0x00000024#32 := by decide

theorem statusError_truncated : statusError .truncated = 0x00000034#32 := by decide

theorem statusError_range : statusError .range = 0x00000044#32 := by decide

/-- Settles O33: Perform ends with `statusError` of one of the four codes or with `statusDone`. -/
theorem commandEndsWithANamedStatus : Obligations.CommandEndsWithANamedStatus := by
  intro s ha
  rcases perform_cases s with ⟨hshared, -⟩ | ⟨-, e, -, hp⟩ | ⟨i, -, -, hp⟩
  · cases ha.symm.trans hshared
  · refine ⟨_, hp, .inr ?_⟩
    rw [raiseError_regs]
    cases e with
    | unsupportedFormat => exact .inl statusError_unsupportedFormat
    | dimension => exact .inr (.inl statusError_dimension)
    | truncated => exact .inr (.inr (.inl statusError_truncated))
    | range => exact .inr (.inr (.inr statusError_range))
  · exact ⟨_, hp, .inl statusDone_eq⟩

/-! The tiled scan (R115, R118). -/

theorem tileWidth_pos (i : Instr) : 0 < tileWidth i := by cases i <;> decide

theorem tileHeight_pos (i : Instr) : 0 < tileHeight i := by cases i <;> decide

/-- The scan makes as many visits as the image has pixels. -/
theorem length_tileScan {tw th : Nat} (htw : 0 < tw) (hth : 0 < th) (a b : Nat) :
    (tileScan tw th (tw * a) (th * b)).length = (tw * a) * (th * b) := by
  simp only [tileScan, tileVisits, stepsTo_mul htw, stepsTo_mul hth, List.length_flatMap, List.length_map, List.length_range,
    List.map_const', List.sum_replicate, smul_eq_mul]
  ring

/-- A list of pixels as long as the image that has exactly the image's pixels has none twice. -/
theorem nodup_of_covers {l : List (Nat × Nat)} {w h : Nat} (hmem : ∀ c r, (c, r) ∈ l ↔ c < w ∧ r < h)
    (hlen : l.length = w * h) : l.Nodup := by
  have hset : l.toFinset = Finset.range w ×ˢ Finset.range h := by
    ext ⟨c, r⟩
    simp [hmem]
  have hcard : l.toFinset.card = l.length := by rw [hset, Finset.card_product, Finset.card_range, Finset.card_range, hlen]
  exact Multiset.toFinset_card_eq_card_iff_nodup.1 hcard

theorem mem_tileScan_pixels {tw th : Nat} (htw : 0 < tw) (hth : 0 < th) (a b c r : Nat) :
    (c, r) ∈ (tileScan tw th (tw * a) (th * b)).map Visit.pixel ↔ c < tw * a ∧ r < th * b := by
  refine ⟨fun h => ?_, fun ⟨hc, hr⟩ => tileScan_covers htw hth hc hr⟩
  obtain ⟨v, hv, hpixel⟩ := List.mem_map.1 h
  cases hpixel
  exact tileScan_inside htw hth hv

/-- Settles O42: the scan visits exactly the image's pixels, and it makes no more visits than there are pixels. -/
theorem tileScanIsABijection : Obligations.TileScanIsABijection := by
  intro i w h hw hh
  obtain ⟨a, rfl⟩ := Nat.dvd_of_mod_eq_zero hw
  obtain ⟨b, rfl⟩ := Nat.dvd_of_mod_eq_zero hh
  have hmem := mem_tileScan_pixels (tileWidth_pos i) (tileHeight_pos i) a b
  refine ⟨nodup_of_covers hmem ?_, hmem⟩
  rw [List.length_map, length_tileScan (tileWidth_pos i) (tileHeight_pos i)]

/-! Empty images (R107, log 26). -/

theorem State.operands_pixels_eq_zero {s : State} (h : s.regs.width = 0 ∨ s.regs.height = 0) :
    s.operands.w * s.operands.h = 0 := by
  rcases h with h | h <;> simp [State.operands, h]

theorem requiredLength_eq_zero (i : Instr) {w h : Nat} (he : w * h = 0) : requiredLength i w h = 0 := by
  cases i <;> simp [requiredLength, Nat.mul_assoc, he]

theorem State.dstLen_eq_zero {s : State} (h : s.regs.width = 0 ∨ s.regs.height = 0) : s.operands.dstLen = 0 := by
  rw [Operands.dstLen, s.operands_pixels_eq_zero h]

/-- A command whose check fails, on buffers that share no byte, ends with that error (R227). -/
theorem exec_of_check {i : Instr} {s : State} {e : ErrorCode} (ha : s.buffersAlias = false)
    (hc : checkOperands i s.operands s.platform = some e) : exec i s = .next (raiseError e s) :=
  (exec_eq i s).trans (performCommand_error ha hc)

/-- Settles O49: an empty image requires no source byte and has no destination byte, so only the range check can fail, and the
frame leaves every byte. -/
theorem emptyImageWritesNothing : Obligations.EmptyImageWritesNothing := by
  intro i s hw hh hempty
  have hpixels := State.operands_pixels_eq_zero hempty
  have hdst := State.dstLen_eq_zero hempty
  have halias := buffersAlias_empty hdst
  have hreq : requiredLength i s.operands.w s.operands.h ≤ s.operands.sl := by
    rw [requiredLength_eq_zero i hpixels]; exact Nat.zero_le _
  refine ⟨fun hsrc hbase => ?_, fun hout => ?_⟩
  · have hacc : Accepts i s := ⟨hw, hh, hreq, hsrc, by rw [hpixels]; exact hbase, halias⟩
    obtain ⟨t, hexec, ht⟩ := exec_completed hacc
    exact ⟨t, hexec, statusDone_eq ▸ ht.regs, fun l => ht.outside l (inDstBuffer_empty hdst l)⟩
  · have hcheck : checkOperands i s.operands s.platform = some .range :=
      checkOperands_range hw hh hreq (by rw [hpixels]; exact hout)
    rw [exec_of_check halias hcheck, raiseError, statusError_range]
    rfl

/-- Settles O29: the dimension check is the first, and the empty buffer shares no byte. -/
theorem emptyImageWithABadDimension : Obligations.EmptyImageWithABadDimension := by
  intro i s h
  have hempty : s.regs.width = 0 ∨ s.regs.height = 0 := h.imp And.left And.left
  have hbad : s.operands.w % tileWidth i ≠ 0 ∨ s.operands.h % tileHeight i ≠ 0 := h.symm.imp And.right And.right
  have halias := buffersAlias_empty (State.dstLen_eq_zero hempty)
  rw [exec_of_check halias (checkOperands_dimension hbad), raiseError, statusError_dimension]
  rfl

/-! The output as a function of the required source bytes (R60, R106). -/

/-- The bytes a completed command leaves, by their place in the destination buffer (R114). -/
theorem Completed.readDst {i : Instr} {s t : State} (h : Completed i s t) {c r j : Nat} (hc : c < s.operands.w)
    (hr : r < s.operands.h) (hj : j < 4) :
    t.readDst (s.operands.db + (pixelOffset s.operands.w c r + j)) = (imagePixel i s.operands.w s.srcByte c r).byte j := by
  rw [← Nat.add_assoc]
  exact h.image c r j hc hr hj

/-- Settles O50: each byte of the buffer is one of a pixel, and a pixel's value is a function of the required source bytes. -/
theorem outputDependsOnTheRequiredBytesAlone : Obligations.OutputDependsOnTheRequiredBytesAlone := by
  intro i s s' h h' hw hh hsrc
  obtain ⟨t, hexec, ht⟩ := exec_completed h
  obtain ⟨t', hexec', ht'⟩ := exec_completed h'
  have hwidth : s.operands.w = s'.operands.w := congrArg BitVec.toNat hw
  have hheight : s.operands.h = s'.operands.h := congrArg BitVec.toNat hh
  refine ⟨t, t', hexec, hexec', fun k hk => ?_⟩
  obtain ⟨c, r, j, hc, hr, hj, rfl⟩ := byte_of_pixel hk
  have hbyte := ht.readDst hc hr hj
  rw [imagePixel_congr h.width h.height hsrc hc hr, hwidth] at hbyte
  have hbyte' := ht'.readDst (hc.trans_eq hwidth) (hr.trans_eq hheight) hj
  rw [hw]
  exact hbyte.trans hbyte'.symm

/-! Steps (R101, R121, log 1, log 7). -/

theorem hostsTurn_eq_false_iff {s : State} : s.hostsTurn = false ↔ s.host.turns.head? ≠ some .host := by
  simp [State.hostsTurn]

/-- While BUSY = 1 and the host does not move, a step is Perform with the turn taken. -/
theorem step_of_decoders_turn {s : State} (hb : s.busy = true) (h : s.host.ops = [] ∨ s.hostsTurn = false) :
    step s = perform s.afterTurn := by
  rcases step_cases s with ⟨-, -, hs⟩ | ⟨op, ops, -, hops, hturn, -⟩ | ⟨op, ops, hidle, -⟩ | ⟨hidle, -⟩
  · exact hs
  · simp [hops, hturn] at h
  · cases hb.symm.trans hidle
  · cases hb.symm.trans hidle

theorem perform_of_decode {s : State} {i : Instr} (h : decode s.regs.cmd = .ok i) : perform s = exec i s := by
  simp only [perform, h]

/-- Settles O4: at BUSY = 1 the decoder moves unless the host has the turn and an operation, and taking a turn leaves CMD. -/
theorem stepPerformsTheLatchedCommand : Obligations.StepPerformsTheLatchedCommand := by
  intro s hb h
  have hstep : step s = perform s.afterTurn := step_of_decoders_turn hb (h.imp_right hostsTurn_eq_false_iff.2)
  exact ⟨hstep, fun i hi => hstep.trans (perform_of_decode hi)⟩

theorem withFetchWord_busy (s : State) (nbits w : Nat) : (s.withFetchWord nbits w).busy = true :=
  (statusWord_fields true false false 0#4).1

/-- Taking the decoder's turn leaves the state of the start (R100). -/
theorem withFetchWord_afterTurn (s : State) (w : Word) : (s.withFetchWord 32 w.toNat).afterTurn = startCommand w s := by
  rw [State.withFetchWord, tableWord_toNat]
  rfl

/-- Settles O5: the placed turn is the decoder's, so the step is Perform of the word that the start has latched. -/
theorem fetchWordIsPerformedNext : Obligations.FetchWordIsPerformedNext := by
  intro s i
  have hturn : (s.withFetchWord 32 (encode i).toNat).hostsTurn = false := rfl
  rw [step_of_decoders_turn (withFetchWord_busy s _ _) (.inr hturn), withFetchWord_afterTurn,
    perform_of_decode (decode_encode i), startCommand, statusStarted_eq]

theorem step_of_no_agent {s : State} (hb : s.busy = false) (hops : s.host.ops = []) : step s = .fault .noAgentEnabled := by
  simp [step, hb, hops]

theorem step_of_idle {s : State} {op : HostOp} {ops : List HostOp} (hb : s.busy = false) (hops : s.host.ops = op :: ops) :
    step s = .next (hostStep op s.afterOp) := by
  simp [step, hb, hops]

theorem step_of_hosts_turn {s : State} {op : HostOp} {ops : List HostOp} (hb : s.busy = true) (hops : s.host.ops = op :: ops)
    (hturn : s.hostsTurn = true) : step s = .next (hostStep op s.afterTurn.afterOp) := by
  simp [step, hb, hops, hturn]

theorem afterOp_of_cons {s : State} {op : HostOp} {ops : List HostOp} (hops : s.host.ops = op :: ops) :
    s.afterOp = { s with host := { s.host with ops := ops, last := some op } } := by
  simp only [State.afterOp, hops, List.tail_cons, List.head?_cons]

theorem afterTurn_of_cons {s : State} {a : Agent} {turns : List Agent} (hturns : s.host.turns = a :: turns) :
    s.afterTurn = { s with host := { s.host with turns := turns } } := by
  simp only [State.afterTurn, hturns, List.tail_cons]

/-- Settles O6: the branches of `step` that are not the decoder's, with the operation and the turn taken from their lists. -/
theorem stepTakesTheHostOperation : Obligations.StepTakesTheHostOperation := by
  intro s
  refine ⟨step_of_no_agent, fun op ops hb hops => ?_, fun op ops turns hb hops hturns => ?_⟩
  · rw [step_of_idle hb hops, afterOp_of_cons hops]
  · have hturn : s.hostsTurn = true := by simp [State.hostsTurn, hturns]
    rw [step_of_hosts_turn hb hops hturn, afterOp_of_cons (s := s.afterTurn) hops, afterTurn_of_cons hturns]

/-! A write to CMD (R100, R254). -/

/-- While BUSY = 1 a bus write at a register's address only records HAZ_REG_WRITE_BUSY (R254). -/
theorem hostStep_busWrite_busy {s : State} (hb : s.busy = true) (r : Register) (v : Word) :
    hostStep (.busWrite (s.platform.regBase + r.offset) 4 v) s = { s with faults := { s.faults with regWriteBusy := true } } := by
  simp [hostStep, hostBusWrite, hb, State.recordHazards, Hazards.none]

/-- Settles O9: at BUSY = 0 the write is `startCommand`, at BUSY = 1 it is the hazard of every register write. -/
theorem startLatchesTheWord : Obligations.StartLatchesTheWord := by
  intro s v
  refine ⟨fun hb => ?_, fun hb => hostStep_busWrite_busy hb .cmd v⟩
  have hstart : hostStep (.busWrite (s.platform.regBase + 0x14) 4 v) s = startCommand v s := hostStep_busWrite_idle hb .cmd v
  rw [hstart, startCommand, statusStarted_eq]

/-! The expanders (R110 to R113). -/

theorem expand5_toNat : ∀ n : BitVec 5, (expand5 n).toNat = (n.toNat <<< 3) ||| (n.toNat >>> 2) := by decide

theorem expand6_toNat : ∀ n : BitVec 6, (expand6 n).toNat = (n.toNat <<< 2) ||| (n.toNat >>> 4) := by decide

theorem expand4_toNat_or : ∀ n : BitVec 4, (expand4 n).toNat = (n.toNat <<< 4) ||| n.toNat := by decide

/-- Settles O34: the formulas on every field value, and the fields by the definitions of the pixels they widen. -/
theorem expandersAreBitReplication : Obligations.ExpandersAreBitReplication := by
  refine ⟨expand5_toNat, expand6_toNat, fun n => ⟨expand4_toNat_or n, expand4_toNat n⟩, ?_, ?_, ?_, ?_, ?_, ?_, ?_, ?_, ?_,
    fun c => ⟨rfl, rfl, rfl⟩, fun n => rfl, fun b => rfl⟩ <;> decide

/-- `expand4` is the rounding of 255n/15, which is 17n. -/
theorem expand4_rounds (n : BitVec 4) : (expand4 n).toNat = (2 * n.toNat * 255 + 15) / 30 := by
  rw [expand4_toNat]
  omega

theorem expand5_ne_rounding_iff : ∀ n : BitVec 5,
    (expand5 n).toNat ≠ (2 * n.toNat * 255 + 31) / 62 ↔ n = 3 ∨ n = 7 ∨ n = 24 ∨ n = 28 := by decide

theorem expand6_ne_rounding_iff : ∀ n : BitVec 6, (expand6 n).toNat ≠ (2 * n.toNat * 255 + 63) / 126 ↔
    (11 ≤ n.toNat ∧ n.toNat ≤ 15) ∨ (48 ≤ n.toNat ∧ n.toNat ≤ 52) := by decide

/-- Settles O35: `expand4` in closed form, the two others over their field values. -/
theorem expandersAreNotRoundings : Obligations.ExpandersAreNotRoundings :=
  ⟨expand4_rounds, expand5_ne_rounding_iff, expand6_ne_rounding_iff, by decide, by decide, by decide, by decide⟩

/-! Two horizontal bands (R120). -/

/-- State `b` asks for rows `[r0, r0 + n)` of the image of `s`: the source from byte `req(W, r0)` on, into the buffer from byte
`r0*W*4` on. Every byte outside the destination buffer of `s` still reads as in `s`. -/
structure IsBand (i : Instr) (s b : State) (r0 n : Nat) : Prop where
  width : b.operands.w = s.operands.w
  height : b.operands.h = n
  source : b.operands.sb = s.operands.sb + requiredLength i s.operands.w r0
  length : b.operands.sl = s.operands.sl - requiredLength i s.operands.w r0
  destination : b.operands.db = s.operands.db + r0 * s.operands.w * 4
  platform : b.platform = s.platform
  outside : OnlyDestinationWritten s b
  rows : r0 + n ≤ s.operands.h

/-- The required length of rows on top of a tile boundary adds up. -/
theorem requiredLength_add_rows {i : Instr} {w r0 n : Nat} (hw : w % tileWidth i = 0) (h0 : r0 % tileHeight i = 0)
    (hn : n % tileHeight i = 0) : requiredLength i w (r0 + n) = requiredLength i w r0 + requiredLength i w n := by
  have hsum : (r0 + n) % tileHeight i = 0 := Nat.mod_eq_zero_of_dvd
    (Nat.dvd_add (Nat.dvd_of_mod_eq_zero h0) (Nat.dvd_of_mod_eq_zero hn))
  rw [requiredLength_tiles hw hsum, requiredLength_tiles hw h0, requiredLength_tiles hw hn,
    Nat.add_div_of_dvd_right (Nat.dvd_of_mod_eq_zero h0), Nat.mul_add]

theorem requiredLength_le_of_rows {i : Instr} {w n h : Nat} (hle : n ≤ h) : requiredLength i w n ≤ requiredLength i w h := by
  have hmul : w * n ≤ w * h := Nat.mul_le_mul_left w hle
  cases i <;> simp only [requiredLength, Nat.mul_assoc] <;> omega

section
variable {i : Instr} {s b t : State} {r0 n : Nat}

/-- Row `r` of a band is row `r0 + r` of the image. -/
theorem pixelOffset_add_rows (w r0 c r : Nat) : r0 * w * 4 + pixelOffset w c r = pixelOffset w c (r0 + r) := by
  unfold pixelOffset
  ring

/-- The band's part of the destination buffer lies in the whole one. -/
theorem IsBand.dstLen_le (h : IsBand i s b r0 n) : r0 * s.operands.w * 4 + b.operands.dstLen ≤ s.operands.dstLen := by
  have hrows : s.operands.w * (r0 + n) ≤ s.operands.w * s.operands.h := Nat.mul_le_mul_left _ h.rows
  rw [Operands.dstLen, Operands.dstLen, h.width, h.height, Nat.mul_comm r0]
  rw [Nat.mul_add] at hrows
  omega

theorem IsBand.inDstBuffer (h : IsBand i s b r0 n) {l : Loc} (hl : b.inDstBuffer l = true) : s.inDstBuffer l = true := by
  have hlen := h.dstLen_le
  obtain ⟨k, hk, rfl⟩ := inDstBuffer_iff.1 hl
  refine inDstBuffer_iff.2 ⟨r0 * s.operands.w * 4 + k, ?_, by rw [h.platform, h.destination, Nat.add_assoc]⟩
  unfold State.dstBufferBytes at hk ⊢
  rw [h.platform, h.destination] at hk
  omega

/-- A completed band writes nothing outside the destination buffer of the whole image. -/
theorem IsBand.readLoc_outside (h : IsBand i s b r0 n) (ht : Completed i b t) {l : Loc} (hl : s.inDstBuffer l = false) :
    t.readLoc l = s.readLoc l := by
  have hb : b.inDstBuffer l = false := Bool.eq_false_iff.2 fun hc => by
    rw [h.inDstBuffer hc] at hl
    cases hl
  exact (ht.outside l hb).trans (h.outside l hl)

/-- The bytes a band may write are those of its rows. -/
theorem IsBand.pixel_of_inDstBuffer (h : IsBand i s b r0 n) {c r j : Nat} (hc : c < s.operands.w) (hj : j < 4)
    (hl : b.inDstBuffer (dstLoc s.platform (s.operands.db + (pixelOffset s.operands.w c r + j))) = true) :
    r0 ≤ r ∧ r < r0 + n := by
  obtain ⟨k, hk, he⟩ := inDstBuffer_iff.1 hl
  obtain ⟨c', r', j', hc', hr', hj', rfl⟩ := byte_of_pixel (hk.trans_le (dstBufferBytes_le b))
  rw [h.platform, dstLoc_inj, h.destination, h.width] at he
  rw [h.width] at hc'
  rw [h.height] at hr'
  have hoff := pixelOffset_add_rows s.operands.w r0 c' r'
  obtain ⟨-, rfl, -⟩ := pixelOffset_inj hc hc' hj hj' (r := r) (r' := r0 + r') (by omega)
  omega

/-- The band's source bytes are those of the image from `req(W, r0)` on. -/
theorem IsBand.srcByte (h : IsBand i s b r0 n) (hs : s.SourceApart) {k : Nat}
    (hk : requiredLength i s.operands.w r0 + k < s.operands.sl) :
    b.srcByte k = s.srcByte (requiredLength i s.operands.w r0 + k) := by
  have hbase : b.regs.srcBase.toNat = s.operands.sb + requiredLength i s.operands.w r0 := h.source
  rw [State.srcByte, State.readSrc, h.platform, hbase, Nat.add_assoc]
  exact h.outside _ (hs _ hk)

/-- A band on tile boundaries passes the checks when the whole image does. -/
theorem IsBand.accepts (h : IsBand i s b r0 n) (hs : Accepts i s) (h0 : r0 % tileHeight i = 0) (hn : n % tileHeight i = 0) :
    Accepts i b := by
  have hreq : requiredLength i s.operands.w r0 + requiredLength i s.operands.w n ≤ s.operands.sl :=
    (requiredLength_add_rows hs.width h0 hn).symm.trans_le ((requiredLength_le_of_rows h.rows).trans hs.length)
  have hsrc : b.operands.sb + b.operands.sl = s.operands.sb + s.operands.sl := by
    rw [h.source, h.length]
    omega
  have hin : b.operands.sb + b.operands.sl ≤ b.platform.srcSpaceBytes := by
    rw [hsrc, h.platform]
    exact hs.source
  refine ⟨h.width ▸ hs.width, h.height.symm ▸ hn, ?_, hin, ?_, ?_⟩
  · rw [h.width, h.height, h.length]
    omega
  · have hlen := h.dstLen_le
    have hdst := hs.destination
    unfold Operands.dstLen at hlen
    rw [h.destination, h.platform]
    omega
  · by_contra hshared
    rw [Bool.not_eq_false, buffersAlias_iff] at hshared
    obtain ⟨l, hlsrc, hldst⟩ := hshared
    obtain ⟨k, hk, rfl⟩ := inSrcBuffer_iff.1 hlsrc
    rw [srcBufferBytes_eq hin, h.length] at hk
    have hapart := hs.sourceApart (requiredLength i s.operands.w r0 + k) (by omega)
    rw [← Nat.add_assoc, ← h.source, ← h.platform, h.inDstBuffer hldst] at hapart
    cases hapart

/-- A completed band leaves its rows of the whole image. -/
theorem IsBand.readDst (h : IsBand i s b r0 n) (hs : Accepts i s) (h0 : r0 % tileHeight i = 0) (hn : n % tileHeight i = 0)
    (ht : Completed i b t) {c r j : Nat} (hc : c < s.operands.w) (hr : r < n) (hj : j < 4) :
    t.readDst (s.operands.db + (pixelOffset s.operands.w c (r0 + r) + j)) =
      (imagePixel i s.operands.w s.srcByte c (r0 + r)).byte j := by
  have hreq := (requiredLength_add_rows hs.width h0 hn).symm.trans_le ((requiredLength_le_of_rows h.rows).trans hs.length)
  have hbyte := ht.readDst (hc.trans_eq h.width.symm) (hr.trans_eq h.height.symm) hj
  have hsource : ∀ k < requiredLength i s.operands.w n, b.srcByte k = s.srcByte (requiredLength i s.operands.w r0 + k) :=
    fun k hk => h.srcByte hs.sourceApart (by omega)
  rw [h.width, h.destination, imagePixel_congr hs.width hn hsource hc hr, ← imagePixel_band _ hs.width h0] at hbyte
  rw [← hbyte, ← pixelOffset_add_rows]
  congr 1
  omega

end

/-- The command for the rows above `r0`. -/
def State.upperBand (s : State) (r0 : Nat) : State :=
  { s with regs := { s.regs with height := BitVec.ofNat 32 r0 } }

/-- The command, in state `u`, for the rows of the image of `s` from `r0` on. -/
def State.lowerBand (i : Instr) (s u : State) (r0 : Nat) : State :=
  { u with regs := { u.regs with
      height := BitVec.ofNat 32 (s.regs.height.toNat - r0)
      srcBase := BitVec.ofNat 32 (s.regs.srcBase.toNat + requiredLength i s.regs.width.toNat r0)
      srcLen := BitVec.ofNat 32 (s.regs.srcLen.toNat - requiredLength i s.regs.width.toNat r0)
      dstBase := BitVec.ofNat 32 (s.regs.dstBase.toNat + r0 * s.regs.width.toNat * 4) } }

theorem word_toNat {n : Nat} (h : n < 2 ^ 32) : (BitVec.ofNat 32 n).toNat = n := by
  rw [BitVec.toNat_ofNat, Nat.mod_eq_of_lt h]

theorem upperBand_isBand (i : Instr) {s : State} {r0 : Nat} (hr : r0 ≤ s.regs.height.toNat) :
    IsBand i s (s.upperBand r0) 0 r0 := by
  have hreq : requiredLength i s.operands.w 0 = 0 := requiredLength_eq_zero i (Nat.mul_zero _)
  exact ⟨rfl, word_toNat (hr.trans_lt s.regs.height.isLt), by rw [hreq]; rfl, by rw [hreq]; rfl, by simp; rfl, rfl,
    fun _ _ => rfl, by rw [Nat.zero_add]; exact hr⟩

/-- After the upper band, the lower band's command asks for the rest of the image. -/
theorem lowerBand_isBand {i : Instr} {s u : State} {r0 : Nat} (hr : r0 ≤ s.regs.height.toNat)
    (hu : Completed i (s.upperBand r0) u) (hsrc : s.regs.srcBase.toNat + requiredLength i s.regs.width.toNat r0 < 2 ^ 32)
    (hdst : s.regs.dstBase.toNat + r0 * s.regs.width.toNat * 4 < 2 ^ 32) :
    IsBand i s (s.lowerBand i u r0) r0 (s.regs.height.toNat - r0) := by
  have hheight : s.regs.height.toNat - r0 < 2 ^ 32 := (Nat.sub_le _ _).trans_lt s.regs.height.isLt
  have hlen : s.regs.srcLen.toNat - requiredLength i s.regs.width.toNat r0 < 2 ^ 32 :=
    (Nat.sub_le _ _).trans_lt s.regs.srcLen.isLt
  refine ⟨?_, word_toNat hheight, word_toNat hsrc, word_toNat hlen, word_toNat hdst, hu.surroundings.platform,
    fun _ => (upperBand_isBand i hr).readLoc_outside hu, (Nat.add_sub_cancel' hr).le⟩
  have hwidth : u.regs.width = s.regs.width := by rw [hu.regs]; rfl
  exact congrArg BitVec.toNat hwidth

/-- The lower band leaves the rows above it (R114). -/
theorem lowerBand_keeps_upper {i : Instr} {s u v : State} {r0 n : Nat} (h : IsBand i s (s.lowerBand i u r0) r0 n)
    (hv : Completed i (s.lowerBand i u r0) v) {c r j : Nat} (hc : c < s.operands.w) (hr : r < r0) (hj : j < 4) :
    v.readDst (s.operands.db + (pixelOffset s.operands.w c r + j)) =
      u.readDst (s.operands.db + (pixelOffset s.operands.w c r + j)) := by
  have hplatform : u.platform = s.platform := h.platform
  rw [State.readDst, State.readDst, hv.surroundings.platform, h.platform, hplatform]
  refine hv.outside _ (Bool.eq_false_iff.2 fun hin => ?_)
  obtain ⟨hrow, -⟩ := h.pixel_of_inDstBuffer hc hj hin
  omega

/-- Settles O52: each band passes the checks and leaves its rows of the image, and the lower one leaves the rows above it. -/
theorem twoBandsMakeOneImage : Obligations.TwoBandsMakeOneImage := by
  intro i s r0 h h0 hr w q hsrc hdst
  have hrest : (s.regs.height.toNat - r0) % tileHeight i = 0 := Nat.mod_eq_zero_of_dvd
    (Nat.dvd_sub (Nat.dvd_of_mod_eq_zero h.height) (Nat.dvd_of_mod_eq_zero h0))
  have hupper := upperBand_isBand i hr
  obtain ⟨t, hexec, ht⟩ := exec_completed h
  obtain ⟨u, hexecu, hu⟩ := exec_completed (hupper.accepts h (Nat.zero_mod _) h0)
  have hlower := lowerBand_isBand hr hu hsrc hdst
  obtain ⟨v, hexecv, hv⟩ := exec_completed (hlower.accepts h h0 hrest)
  refine ⟨t, u, v, hexec, hexecu, hexecv, fun l => ?_⟩
  cases hl : s.inDstBuffer l with
  | false => rw [hlower.readLoc_outside hv hl, ht.outside l hl]
  | true =>
    obtain ⟨k, hk, rfl⟩ := inDstBuffer_iff.1 hl
    obtain ⟨c, r, j, hc, hrow, hj, rfl⟩ := byte_of_pixel (hk.trans_le (dstBufferBytes_le s))
    have hwhole := ht.readDst hc hrow hj
    have hvplatform : v.platform = s.platform := hv.surroundings.platform.trans hlower.platform
    have hbytes : v.readDst (s.operands.db + (pixelOffset s.operands.w c r + j)) =
        t.readDst (s.operands.db + (pixelOffset s.operands.w c r + j)) := by
      rcases Nat.lt_or_ge r r0 with hlt | hge
      · have hfirst := hupper.readDst h (Nat.zero_mod _) h0 hu hc hlt hj
        rw [Nat.zero_add] at hfirst
        rw [lowerBand_keeps_upper hlower hv hc hlt hj, hfirst, hwhole]
      · obtain ⟨r', rfl⟩ := Nat.exists_eq_add_of_le hge
        have hr' : r' < s.regs.height.toNat - r0 := Nat.lt_sub_iff_add_lt'.2 hrow
        rw [hlower.readDst h h0 hrest hv hc hr' hj, hwhole]
    unfold State.readDst at hbytes
    rwa [hvplatform, ht.surroundings.platform] at hbytes

end Sys2Proof.Machine

namespace Sys2Proof.Machine

/-! The palette of a sub-block, one lemma per branch (R145 to R149). -/

@[simp] theorem buildPalette_p0 (c d : Half) : (buildPalette c d).p0 = refColour c := by
  unfold buildPalette
  split <;> rfl

@[simp] theorem buildPalette_p1 (c d : Half) : (buildPalette c d).p1 = refColour d := by
  unfold buildPalette
  split <;> rfl

/-- The opaque branch (R147). -/
theorem buildPalette_of_gt {c d : Half} (h : d.toNat < c.toNat) :
    buildPalette c d = { p0 := refColour c, p1 := refColour d, p2 := blendColour (refColour d) (refColour c),
                         p3 := blendColour (refColour c) (refColour d) } :=
  if_pos (decide_eq_true h)

/-- The punch-through branch (R148). -/
theorem buildPalette_of_le {c d : Half} (h : c.toNat ≤ d.toNat) :
    buildPalette c d = { p0 := refColour c, p1 := refColour d, p2 := averageColour (refColour c) (refColour d),
                         p3 := { averageColour (refColour c) (refColour d) with a := 0#8 } } :=
  if_neg fun hgt => Nat.not_lt.2 h (of_decide_eq_true hgt)

/-- The blend of two bytes is a byte: nothing is cut off (R119). -/
theorem blend_toNat (a b : Byte) : (blend a b).toNat = (3 * a.toNat + 5 * b.toNat) >>> 3 := by
  rw [blend, BitVec.toNat_ofNat, Nat.shiftRight_eq_div_pow]
  omega

/-- The average of two bytes is a byte (R119). -/
theorem average_toNat (a b : Byte) : (average a b).toNat = (a.toNat + b.toNat) >>> 1 := by
  rw [average, BitVec.toNat_ofNat, Nat.shiftRight_eq_div_pow]
  omega

theorem blend_self (a : Byte) : blend a a = a :=
  BitVec.eq_of_toNat_eq (by rw [blend_toNat, Nat.shiftRight_eq_div_pow]; omega)

theorem average_self (a : Byte) : average a a = a :=
  BitVec.eq_of_toNat_eq (by rw [average_toNat, Nat.shiftRight_eq_div_pow]; omega)

/-- Settles O37: both branches keep the two reference colours, and two words are expanded as the rule gives them. -/
theorem paletteReferenceEntries : Obligations.PaletteReferenceEntries :=
  ⟨fun c d => ⟨buildPalette_p0 c d, buildPalette_p1 c d⟩,
    fun d => (buildPalette_p0 _ d).trans (by decide), fun d => (buildPalette_p0 _ d).trans (by decide)⟩

/-- Settles O38: the opaque branch, each channel by `blend_toNat`. -/
theorem opaqueBranchBlends : Obligations.OpaqueBranchBlends := by
  refine ⟨by decide, by decide, fun c d h => ?_⟩
  rw [buildPalette_of_gt h]
  exact ⟨⟨blend_toNat _ _, blend_toNat _ _, blend_toNat _ _, rfl⟩, blend_toNat _ _, blend_toNat _ _, blend_toNat _ _, rfl⟩

/-- Settles O39: the punch-through branch, each channel by `average_toNat`. -/
theorem punchThroughBranchAverages : Obligations.PunchThroughBranchAverages := by
  refine ⟨by decide, by decide, fun c d h => ?_⟩
  rw [buildPalette_of_le h]
  exact ⟨⟨average_toNat _ _, average_toNat _ _, average_toNat _ _, rfl⟩, rfl⟩

/-! Corner cases of the interpolator (R153). -/

/-- The average of a reference colour with itself is that colour. -/
theorem averageColour_refColour_self (c : Half) : averageColour (refColour c) (refColour c) = refColour c := by
  simp only [averageColour, average_self]
  rfl

/-- The high bits of an expanded field are the field (R110). -/
theorem expand5_field : ∀ n : BitVec 5, (expand5 n).extractLsb' 3 5 = n := by decide

/-- The high bits of an expanded field are the field (R111). -/
theorem expand6_field : ∀ n : BitVec 6, (expand6 n).extractLsb' 2 6 = n := by decide

theorem expand5_injective : Function.Injective expand5 := Function.LeftInverse.injective expand5_field

theorem expand6_injective : Function.Injective expand6 := Function.LeftInverse.injective expand6_field

/-- A colour word is its three fields (R78). -/
theorem rgb565_fields (c : Half) : c.extractLsb' 11 5 ++ (c.extractLsb' 5 6 ++ c.extractLsb' 0 5) = c := by
  rw [BitVec.extractLsb'_append_extractLsb'_eq_extractLsb' (show 5 = 0 + 5 from rfl),
    BitVec.extractLsb'_append_extractLsb'_eq_extractLsb' (show 11 = 0 + (6 + 5) from rfl)]
  exact BitVec.extractLsb'_eq_self

/-- Distinct colour words have distinct colours: no field is lost when it is expanded. -/
theorem refColour_injective : Function.Injective refColour := by
  intro c d h
  obtain ⟨hr, hg, hb, -⟩ := Rgba.mk.inj h
  rw [← rgb565_fields c, ← rgb565_fields d, expand5_injective hr, expand6_injective hg, expand5_injective hb]

/-- Every entry of an opaque sub-block is opaque. -/
theorem entry_alpha_of_gt {c d : Half} (h : d.toNat < c.toNat) (e : BitVec 2) : ((buildPalette c d).entry e).a = 255#8 := by
  rw [buildPalette_of_gt h, Palette.entry]
  split <;> rfl

/-- Settles O40: (a) and (b) by `average_self`, (d) by `blend_self`, (e) by `refColour_injective`, and (c) and (f) by the alphas
each branch gives. -/
theorem paletteCornerCases : Obligations.PaletteCornerCases := by
  refine ⟨fun c => ?_, by decide, fun c d => entry_alpha_of_gt, fun c d h => ?_, fun c d h => ?_, fun c d h => ?_⟩
  · simp only [buildPalette_of_le (Nat.le_refl c.toNat), averageColour_refColour_self, and_self]
  · rw [buildPalette_of_gt h]
    have blends {a b : Byte} (he : a = b) : blend b a = a ∧ blend a b = a := by rw [he, blend_self]; exact ⟨rfl, rfl⟩
    exact ⟨blends, blends, blends⟩
  · rw [buildPalette_p0, buildPalette_p1] at h
    exact refColour_injective h
  · rw [buildPalette_of_le h]
    exact ⟨rfl, rfl, rfl, (by decide : (0#8) ≠ 255#8)⟩

/-! The sub-block swizzle (R118, R141, R142). -/

theorem SubBlock.mem_pixels {b : SubBlock} {p : Nat × Nat} : p ∈ b.pixels ↔ ∃ py < 4, ∃ px < 4, b.pixel py px = p := by
  simp only [SubBlock.pixels, List.mem_flatMap, List.mem_map, List.mem_range]

/-- The sub-blocks cover the image and nothing else. -/
theorem mem_subBlockScan_pixels (m n c r : Nat) :
    (c, r) ∈ (subBlockScan (8 * m) (8 * n)).flatMap SubBlock.pixels ↔ c < 8 * m ∧ r < 8 * n := by
  rw [List.mem_flatMap]
  constructor
  · rintro ⟨⟨xx, yy, s⟩, hb, hp⟩
    obtain ⟨kx, hkx, ky, hky, rfl, rfl, (hs : s < 4)⟩ := mem_subBlockScan.1 hb
    obtain ⟨py, hpy, px, hpx, hpixel⟩ := SubBlock.mem_pixels.1 hp
    simp only [SubBlock.pixel, subBlockCol_eq hs, subBlockRow_eq hs, Prod.mk.injEq] at hpixel
    omega
  · rintro ⟨hc, hr⟩
    have hs : 2 * (r % 8 / 4) + c % 8 / 4 < 4 := by omega
    refine ⟨⟨c / 8 * 8, r / 8 * 8, 2 * (r % 8 / 4) + c % 8 / 4⟩,
      mem_subBlockScan.2 ⟨c / 8, by omega, r / 8, by omega, rfl, rfl, hs⟩,
      SubBlock.mem_pixels.2 ⟨r % 4, by omega, c % 4, by omega, ?_⟩⟩
    simp only [SubBlock.pixel, subBlockCol_eq hs, subBlockRow_eq hs, Prod.mk.injEq]
    omega

/-- The sub-blocks have as many pixels as the image. -/
theorem length_subBlockScan_pixels (m n : Nat) :
    ((subBlockScan (8 * m) (8 * n)).flatMap SubBlock.pixels).length = (8 * m) * (8 * n) := by
  simp only [subBlockScan, SubBlock.pixels, stepsTo_mul (show 0 < 8 by omega), List.flatMap_assoc, List.length_flatMap,
    List.length_map, List.length_range, List.map_const', List.sum_replicate, smul_eq_mul]
  ring

/-- Settles O43: the sub-blocks cover exactly the image's pixels, and have no more pixels than there are. -/
theorem subBlockSwizzleIsABijection : Obligations.SubBlockSwizzleIsABijection := by
  intro w h hw hh
  obtain ⟨m, rfl⟩ := Nat.dvd_of_mod_eq_zero hw
  obtain ⟨n, rfl⟩ := Nat.dvd_of_mod_eq_zero hh
  have hmem := mem_subBlockScan_pixels m n
  exact ⟨nodup_of_covers hmem (length_subBlockScan_pixels m n), hmem⟩

/-! DEC.CMPR (R140 to R151). -/

/-- The source place of the sub-block of a pixel: macroblocks of 32 bytes row-major, then sub-blocks of 8 bytes (R141, R143). -/
theorem subBlockOffset_subBlockOf (w c r : Nat) :
    subBlockOffset w (subBlockOf c r) = 32 * ((r / 8) * (w / 8) + c / 8) + 8 * (2 * (r % 8 / 4) + c % 8 / 4) := by
  simp only [subBlockOffset, subBlockOf, macroblockNumber, Nat.mul_div_cancel_left _ (show 0 < 8 by omega)]

/-- The index of a pixel as a base-4 digit of its byte, the leftmost pixel in the highest (R79). -/
theorem paletteIndex_digit (q : Byte) {px : Nat} (hpx : px < 4) :
    (paletteIndex q px).toNat = q.toNat / 4 ^ (3 - px) % 4 := by
  have hpow : 2 ^ (6 - 2 * px) = 4 ^ (3 - px) := by
    rw [show 6 - 2 * px = 2 * (3 - px) by omega, Nat.pow_mul]
  rw [paletteIndex_toNat, Nat.shiftRight_eq_div_pow, hpow]
  exact Nat.and_two_pow_sub_one_eq_mod _ 2

/-- Settles O48: DEC.CMPR completes, each pixel is the palette entry of `imagePixel`, and the entry's bytes are four of PAL's. -/
theorem decCMPRWritesItsImage : Obligations.DecCMPRWritesItsImage := by
  intro s h
  obtain ⟨t, hexec, ht⟩ := exec_completed h
  refine ⟨t, hexec, statusDone_eq ▸ ht.regs, ht.surroundings, ht.outside, fun c r hc hr => ?_⟩
  intro o palette e j hj
  have hbyte := ht.image c r j hc hr hj
  have hindex : (paletteIndex (s.srcByte (o + 4 + r % 4)) (c % 4)).toNat = e := paletteIndex_digit _ (Nat.mod_lt _ (by omega))
  rw [← hindex, palette.byte_eq _ hj]
  simp only [imagePixel, subBlockOffset_subBlockOf] at hbyte
  exact hbyte

end Sys2Proof.Machine

namespace Sys2Proof.Machine

/-! The first failing check (R102, R226, R227). -/

/-- An error end changes STATUS alone, to the error's word (R221, R227). -/
theorem raiseError_eq_withStatus (e : ErrorCode) (s : State) : raiseError e s = withStatus s (statusError e) := rfl

/-- Settles O28: a reserved word fails the first check, and for a command each clause is the case of `checkOperands` in which the
checks before it pass. -/
theorem firstFailingCheckIsReported : Obligations.FirstFailingCheckIsReported := by
  refine ⟨fun s ha h4 h8 ha4 ha8 hc => ?_, fun i s ha => ⟨fun _ _ hbad => ?_, fun hw hh hlen => ?_, fun hw hh hlen hout => ?_⟩⟩
  · rw [perform_of_reserved ha (decode_of_not_listed h4 h8 ha4 ha8 hc), raiseError_eq_withStatus, statusError_unsupportedFormat]
  · rw [exec_of_check ha (checkOperands_dimension hbad), raiseError_eq_withStatus, statusError_dimension]
  · rw [exec_of_check ha (checkOperands_truncated hw hh hlen), raiseError_eq_withStatus, statusError_truncated]
  · rw [exec_of_check ha (checkOperands_range hw hh hlen hout), raiseError_eq_withStatus, statusError_range]

/-! A command started again (R106, R230). -/

/-- A command started again after its end asks for all rows of the same image (R51, R52, R105, R253). -/
theorem Completed.restart_isBand {i : Instr} {s t : State} (ht : Completed i s t) (v : Word) :
    IsBand i s (startCommand v t) 0 s.operands.h := by
  have hoperands : (startCommand v t).operands = s.operands := by
    unfold State.operands startCommand
    rw [ht.regs]
  have hreq : requiredLength i s.operands.w 0 = 0 := requiredLength_eq_zero i (Nat.mul_zero _)
  exact ⟨by rw [hoperands], by rw [hoperands], by rw [hoperands, hreq, Nat.add_zero], by rw [hoperands, hreq, Nat.sub_zero],
    by rw [hoperands, Nat.zero_mul, Nat.zero_mul, Nat.add_zero], ht.surroundings.platform, ht.outside, (Nat.zero_add _).le⟩

/-- The second run writes every byte of the destination buffer with the value that is there, and no other byte. -/
theorem Completed.restart_readLoc {i : Instr} {s t u : State} {v : Word} (h : Accepts i s) (ht : Completed i s t)
    (hu : Completed i (startCommand v t) u) (l : Loc) : u.readLoc l = t.readLoc l := by
  have hband := ht.restart_isBand v
  cases hl : s.inDstBuffer l with
  | false => rw [hband.readLoc_outside hu hl, ht.outside l hl]
  | true =>
    obtain ⟨k, hk, rfl⟩ := inDstBuffer_iff.1 hl
    obtain ⟨c, r, j, hc, hr, hj, rfl⟩ := byte_of_pixel (hk.trans_le (dstBufferBytes_le s))
    have hbytes := hband.readDst h (Nat.zero_mod _) h.height hu hc hr hj
    rw [Nat.zero_add, ← ht.readDst hc hr hj] at hbytes
    have huplatform : u.platform = s.platform := hu.surroundings.platform.trans hband.platform
    unfold State.readDst at hbytes
    rwa [huplatform, ht.surroundings.platform] at hbytes

/-- Settles O51: after an error end the same check fails again, and after a completion the command completes again. -/
theorem startedAgainGivesTheSameOutcome : Obligations.StartedAgainGivesTheSameOutcome := by
  intro i s t ha ht
  rcases exec_cases i s with ⟨hshared, -⟩ | ⟨-, e, hcheck, he⟩ | ⟨hacc, he⟩
  · cases ha.symm.trans hshared
  · cases he.symm.trans ht
    have hagain : checkOperands i (startCommand (encode i) (raiseError e s)).operands s.platform = some e := hcheck
    exact ⟨_, exec_of_check ha hagain, rfl, fun _ => rfl⟩
  · cases he.symm.trans ht
    have hfirst := (decodeImage_result hacc).completed
    have haccAgain := (hfirst.restart_isBand (encode i)).accepts hacc (Nat.zero_mod _) hacc.height
    obtain ⟨u, hexec, hu⟩ := exec_completed haccAgain
    refine ⟨u, hexec, ?_, hfirst.restart_readLoc hacc hu⟩
    rw [hu.regs]
    rfl

end Sys2Proof.Machine

namespace Sys2Proof.Machine

/-! Register accesses (R86, R254, R259). -/

/-- A poll of WAIT reads STATUS, and puts the WAIT back while BUSY = 1 (R86, log 24). -/
theorem hostStep_wait_busy {s : State} (hb : s.busy = true) : hostStep .wait s =
    { s with host := { s.host with ops := .wait :: s.host.ops, replies := .word s.regs.status :: s.host.replies } } := by
  simp [hostStep, hostWait, hb, State.reply]

theorem hostStep_wait_idle {s : State} (hb : s.busy = false) : hostStep .wait s = s.reply (.word s.regs.status) := by
  simp [hostStep, hostWait, hb]

/-- Settles O12: the register read of `hostStep_busRead`, and WAIT by BUSY. -/
theorem registerReadsAtAnyTime : Obligations.RegisterReadsAtAnyTime := by
  intro s
  exact ⟨fun r => hostStep_busRead r s, hostStep_wait_busy, hostStep_wait_idle⟩

/-- Settles O14, by `hostStep_busWrite_busy`. -/
theorem registerWriteWhileBusyIsAHazard : Obligations.RegisterWriteWhileBusyIsAHazard := by
  intro s r v hb
  exact hostStep_busWrite_busy hb r v

/-! Memory accesses at BUSY = 1, by the byte they reach (R255, R256, log 15). -/

theorem hostReadLoc_hazard {s : State} (hb : s.busy = true) {l : Loc} (hl : s.inDstBuffer l = true) :
    hostReadLoc l s = { s with faults := { s.faults with dstBusy := true } } := by
  simp [hostReadLoc, hb, hl, State.recordHazards, Hazards.none]

theorem hostReadLoc_outside {s : State} {l : Loc} (hl : s.inDstBuffer l = false) :
    hostReadLoc l s = s.reply (.byte (s.readLoc l)) := by
  simp [hostReadLoc, hl]

theorem hostWriteLoc_outside {s : State} {l : Loc} (hd : s.inDstBuffer l = false) (hs : s.inSrcBuffer l = false) (b : Byte) :
    hostWriteLoc l b s = s.writeLoc l b := by
  simp [hostWriteLoc, hd, hs]

/-- A write that is a hazard changes FAULTS alone, records what its byte's buffers ask for, and keeps what was recorded. -/
theorem hostWriteLoc_hazard_faults {s : State} {l : Loc} (b : Byte) (hb : s.busy = true)
    (h : s.inDstBuffer l = true ∨ s.inSrcBuffer l = true) :
    ∃ f : Hazards, hostWriteLoc l b s = { s with faults := f } ∧ (s.inDstBuffer l = true → f.dstBusy = true) ∧
      (s.inSrcBuffer l = true → f.srcBusy = true) ∧ s.faults.subset f ∧ f.regWriteBusy = s.faults.regWriteBusy :=
  ⟨_, hostWriteLoc_hazard b hb h, fun hd => by simp [hd], fun hs => by simp [hs],
    ⟨id, fun hf => by simp [hf], fun hf => by simp [hf]⟩, rfl⟩

/-- Where the buffers share no byte, a write to one of them records its hazard alone. -/
theorem hostWriteLoc_dstBuffer {s : State} (hb : s.busy = true) (ha : s.buffersAlias = false) {l : Loc}
    (hl : s.inDstBuffer l = true) (b : Byte) : hostWriteLoc l b s = { s with faults := { s.faults with dstBusy := true } } := by
  simp [hostWriteLoc_hazard b hb (.inl hl), hl, inSrcBuffer_of_inDstBuffer ha hl]

theorem inDstBuffer_of_inSrcBuffer {s : State} (ha : s.buffersAlias = false) {l : Loc} (hl : s.inSrcBuffer l = true) :
    s.inDstBuffer l = false := by
  by_contra hd
  cases (inSrcBuffer_of_inDstBuffer ha ((Bool.not_eq_false _).mp hd)).symm.trans hl

theorem hostWriteLoc_srcBuffer {s : State} (hb : s.busy = true) (ha : s.buffersAlias = false) {l : Loc}
    (hl : s.inSrcBuffer l = true) (b : Byte) : hostWriteLoc l b s = { s with faults := { s.faults with srcBusy := true } } := by
  simp [hostWriteLoc_hazard b hb (.inr hl), hl, inDstBuffer_of_inSrcBuffer ha hl]

/-- Settles O18: inside its space an access is one to its byte's home, and `hostReadLoc` and `hostWriteLoc` ask which buffers have
that byte, not which view reached it. -/
theorem accessesThroughEitherView : Obligations.AccessesThroughEitherView := by
  intro s a b hb
  refine ⟨fun ha => ?_, fun ha => ?_⟩
  · exact ⟨fun hl => (hostStep_readSrc ha).trans (hostReadLoc_hazard hb hl),
      fun hl => (hostStep_readSrc ha).trans (hostReadLoc_outside hl),
      fun hl => (hostStep_loadSrc_byte ha b).trans (hostWriteLoc_hazard b hb hl)⟩
  · exact ⟨fun hl => (hostStep_readDst ha).trans (hostReadLoc_hazard hb hl),
      fun hl => (hostStep_readDst ha).trans (hostReadLoc_outside hl),
      fun hl => (hostStep_writeDst ha b).trans (hostWriteLoc_hazard b hb hl)⟩

/-- Settles O15: the address lies in R52's range, so its byte is one of the destination buffer. -/
theorem destinationAccessWhileBusyIsAHazard : Obligations.DestinationAccessWhileBusyIsAHazard := by
  intro s a b hb ha hfrom hto
  obtain ⟨-, hdst, -⟩ := buffersAreTheBytesOfTheirRanges s
  have hl : s.inDstBuffer (dstLoc s.platform a) = true := (hdst _).2 ⟨a, ha, hfrom, hto, rfl⟩
  rw [hostStep_readDst ha, hostStep_writeDst ha]
  obtain ⟨f, hwrite, hdstBusy, -, hkept, hreg⟩ := hostWriteLoc_hazard_faults b hb (.inl hl)
  exact ⟨hostReadLoc_hazard hb hl, fun hno => hostWriteLoc_dstBuffer hb hno hl b, f, hwrite, hdstBusy hl, hkept, hreg⟩

/-- Settles O16: the address lies in R51's range, so its byte is one of the source buffer; a byte of neither buffer is accessed as
at BUSY = 0. -/
theorem sourceWriteWhileBusyIsAHazard : Obligations.SourceWriteWhileBusyIsAHazard := by
  intro s a b hb
  refine ⟨fun ha hfrom hto => ?_, fun ha hs hd => ?_, fun ha hs hd => ?_⟩
  · obtain ⟨hsrc, -, -⟩ := buffersAreTheBytesOfTheirRanges s
    have hl : s.inSrcBuffer (srcLoc s.platform a) = true := (hsrc _).2 ⟨a, ha, hfrom, hto, rfl⟩
    rw [hostStep_loadSrc_byte ha, hostStep_readSrc ha]
    obtain ⟨f, hwrite, -, hsrcBusy, hkept, hreg⟩ := hostWriteLoc_hazard_faults b hb (.inr hl)
    exact ⟨⟨f, hwrite, hsrcBusy hl, hkept, hreg⟩, fun hno =>
      ⟨hostWriteLoc_srcBuffer hb hno hl b, hostReadLoc_outside (inDstBuffer_of_inSrcBuffer hno hl)⟩⟩
  · exact ⟨(hostStep_loadSrc_byte ha b).trans (hostWriteLoc_outside hd hs b),
      (hostStep_readSrc ha).trans (hostReadLoc_outside hd)⟩
  · exact ⟨(hostStep_writeDst ha b).trans (hostWriteLoc_outside hd hs b),
      (hostStep_readDst ha).trans (hostReadLoc_outside hd)⟩

/-! What a host operation leaves of a running command (R254, R260, R263). -/

/-- While BUSY = 1 only a reset touches the registers. -/
theorem hostStep_regs_busy {s : State} {op : HostOp} (hb : s.busy = true) (hop : op ≠ .reset) : (hostStep op s).regs = s.regs := by
  rcases hostStep_regs_scratch_cases op s with ⟨hregs, -⟩ | ⟨hidle, -⟩ | ⟨hreset, -⟩
  · exact hregs
  · cases hb.symm.trans hidle
  · exact absurd hreset hop

theorem busy_of_regs_eq {s t : State} (h : t.regs = s.regs) : t.busy = s.busy := by
  unfold State.busy; rw [h]

/-- Settles O23, by `hostStep_regs_busy`; BUSY is a bit of a register. -/
theorem onlyResetEndsARunningCommand : Obligations.OnlyResetEndsARunningCommand := by
  intro s op hb hop
  have hregs := hostStep_regs_busy hb hop
  exact ⟨hregs, (busy_of_regs_eq hregs).trans hb⟩

/-! The reset action (R250, R251). -/

theorem hostReset_idle {s : State} (hb : s.busy = false) : hostReset s = releaseAll (s.setRegs Regs.reset) := by
  simp [hostReset, hb]

theorem hostReset_busy {s : State} (hb : s.busy = true) : hostReset s = releaseAll ((abandonCommand s).setRegs Regs.reset) := by
  simp [hostReset, hb]

/-- Settles O26: the registers are `Regs.reset`, and the rest of the action draws the internal state alone. -/
theorem resetActionWhenIdle : Obligations.ResetActionWhenIdle := by
  intro s hb
  simp only [hostStep, hostReset_idle hb]
  exact ⟨Regs.get_reset, rfl, rfl, rfl, rfl, rfl, rfl⟩

theorem abandonCommand_of_aliased {s : State} (ha : s.buffersAlias = true) : abandonCommand s = s.refuse := if_pos ha

theorem abandonCommand_refused {s : State} (ha : s.buffersAlias = false) : (abandonCommand s).refused = s.refused := by
  rcases abandonCommand_cases s with ⟨hshared, -⟩ | ⟨-, -, h⟩ | ⟨i, -, -, h⟩
  · cases ha.symm.trans hshared
  · rw [h]
  · obtain ⟨-, -, -, -, -, -, hrefused, -⟩ := mixBuffer_spec (decodeImage i s.operands s) s s.operands.dstLen
    rw [h, hrefused]

/-- Abandoning a command touches no byte outside its destination buffer. -/
theorem abandonCommand_onlyDestinationWritten (s : State) : OnlyDestinationWritten s (abandonCommand s) := by
  intro l hl
  rcases abandonCommand_cases s with ⟨-, h⟩ | ⟨-, -, h⟩ | ⟨i, -, hacc, h⟩ <;> rw [h]
  · exact readLoc_congr rfl rfl l
  · obtain ⟨-, -, -, -, -, -, -, houtside, -⟩ := mixBuffer_spec (decodeImage i s.operands s) s s.operands.dstLen
    refine houtside l fun k hk he => ?_
    rw [← dstBufferBytes_eq hacc.destination] at hk
    cases hl.symm.trans (inDstBuffer_iff.2 ⟨k, hk, he⟩)

theorem perform_of_accepts {i : Instr} {s : State} (hd : decode s.regs.cmd = .ok i) (h : Accepts i s) :
    perform s = .next (endCommand (decodeImage i s.operands s)) :=
  (perform_of_decode hd).trans ((exec_eq i s).trans (performCommand_accepts h))

/-- An abandoned command leaves each byte of its destination buffer old, or as Perform would have (R251). -/
theorem abandonCommand_readDst {s : State} {k : Nat} (hk : k < s.operands.dstLen) :
    (abandonCommand s).readDst (s.operands.db + k) = s.readDst (s.operands.db + k) ∨
    ∃ u : State, perform s = .next u ∧ (abandonCommand s).readDst (s.operands.db + k) = u.readDst (s.operands.db + k) := by
  rcases abandonCommand_cases s with ⟨-, h⟩ | ⟨-, -, h⟩ | ⟨i, hd, hacc, h⟩ <;> rw [h]
  · exact .inl rfl
  · exact .inl rfl
  · obtain ⟨-, -, -, -, -, -, -, -, hbytes, -⟩ := mixBuffer_spec (decodeImage i s.operands s) s s.operands.dstLen
    exact (hbytes k hk).imp_right fun hdecoded => ⟨_, perform_of_accepts hd hacc, hdecoded⟩

/-- Settles O27: what `abandonCommand` leaves, with the registers at `Regs.reset`. -/
theorem resetActionWhileBusy : Obligations.ResetActionWhileBusy := by
  intro s hb
  obtain ⟨hhost, hfaults, hrecorded, -⟩ := abandonCommand_keeps s
  simp only [hostStep, hostReset_busy hb]
  exact ⟨Regs.get_reset, abandonCommand_onlyDestinationWritten s, fun k hk => abandonCommand_readDst hk, hfaults,
    hrecorded.platform, hhost, abandonCommand_refused,
    fun ha => by rw [abandonCommand_of_aliased ha]; exact ⟨rfl, fun l => readLoc_congr rfl rfl l⟩⟩

/-! BUSY falls (R262, R263). -/

/-- Perform on buffers that share no byte ends the command (R105, R227). -/
theorem perform_ends {s : State} (ha : s.buffersAlias = false) : ∃ t : State, perform s = .next t ∧ t.busy = false := by
  rcases perform_cases s with ⟨hshared, -⟩ | ⟨-, e, -, hp⟩ | ⟨i, -, hacc, hp⟩
  · cases ha.symm.trans hshared
  · exact ⟨_, hp, (statusWord_fields false false true e.code).1⟩
  · exact ⟨_, hp, (decodeImage_result hacc).completed.busy⟩

/-- Which bytes the buffers have depends on the registers and the platform alone. -/
theorem buffersAlias_congr {s t : State} (hr : t.regs = s.regs) (hp : t.platform = s.platform) :
    t.buffersAlias = s.buffersAlias := by
  unfold State.buffersAlias State.srcBufferBytes State.dstBufferBytes State.operands
  rw [hr, hp]

/-- A host operation at BUSY = 1 is a reset, which ends the command, or leaves it to be performed on the same buffers. -/
theorem hostStep_busy_cases (op : HostOp) {s : State} (hb : s.busy = true) :
    (hostStep op s).busy = false ∨ (hostStep op s).busy = true ∧ (hostStep op s).buffersAlias = s.buffersAlias := by
  by_cases hop : op = .reset
  · subst hop
    obtain ⟨hregs, -⟩ := hostReset_keeps s
    exact .inl (congrArg Regs.busy hregs)
  · have hregs := hostStep_regs_busy hb hop
    exact .inr ⟨(busy_of_regs_eq hregs).trans hb, buffersAlias_congr hregs (hostStep_recorded op s).platform⟩

/-- A step at BUSY = 1 makes BUSY fall or uses up a turn. -/
theorem step_busy_cases {s : State} (hb : s.busy = true) (ha : s.buffersAlias = false) :
    ∃ t : State, step s = .next t ∧
      (t.busy = false ∨ t.busy = true ∧ t.buffersAlias = false ∧ t.host.turns.length < s.host.turns.length) := by
  rcases step_cases s with ⟨-, -, hs⟩ | ⟨op, ops, -, -, hturn, hs⟩ | ⟨op, ops, hidle, -⟩ | ⟨hidle, -⟩
  · obtain ⟨t, hp, ht⟩ := perform_ends (s := s.afterTurn) ha
    exact ⟨t, hs.trans hp, .inl ht⟩
  · refine ⟨_, hs, (hostStep_busy_cases op (s := s.afterTurn.afterOp) hb).imp_right fun ⟨hbusy, halias⟩ =>
      ⟨hbusy, halias.trans ha, ?_⟩⟩
    have hpos : 0 < s.host.turns.length := List.length_pos_of_ne_nil fun hnil => by simp [State.hostsTurn, hnil] at hturn
    simp only [hostStep_turns, afterOp_host, afterTurn_host, List.length_tail]
    omega
  · cases hb.symm.trans hidle
  · cases hb.symm.trans hidle

theorem runSteps_succ {s t : State} (h : step s = .next t) (n : Nat) : runSteps (n + 1) s = runSteps n t := by
  simp only [runSteps, h]

/-- By recursion on the turns left. -/
theorem busy_falls (s : State) (hb : s.busy = true) (ha : s.buffersAlias = false) :
    ∃ n, n ≤ s.host.turns.length + 1 ∧ ∃ t : State, runSteps n s = .next t ∧ t.busy = false := by
  obtain ⟨t, hstep, hfallen | ⟨hbusy, halias, hfewer⟩⟩ := step_busy_cases hb ha
  · exact ⟨1, Nat.le_add_left 1 _, t, runSteps_succ hstep 0, hfallen⟩
  · obtain ⟨n, hn, u, hrun, hu⟩ := busy_falls t hbusy halias
    exact ⟨n + 1, by omega, u, (runSteps_succ hstep n).trans hrun, hu⟩
termination_by s.host.turns.length

/-- Settles O7, by `busy_falls`: each step at BUSY = 1 ends the command or uses up a turn. -/
theorem busyFallsWithinTheTurns : Obligations.BusyFallsWithinTheTurns := busy_falls

/-! The end of a run (R264). -/

theorem hostReadLoc_last (l : Loc) (s : State) : (hostReadLoc l s).host.last = s.host.last := by
  rcases hostReadLoc_cases l s with h | h <;> rw [h] <;> rfl

/-- No host operation touches the record of the operation executed last (log 9). -/
theorem hostStep_last (op : HostOp) (s : State) : (hostStep op s).host.last = s.host.last := by
  cases op with
  | busWrite addr bytes v =>
    simp only [hostStep, hostBusWrite]
    split
    · rfl
    · rename_i r _
      obtain ⟨-, -, -, -, -, -, hhost, -⟩ := writeRegister_keeps r v s
      split_ifs
      · rfl
      · rw [hhost]
  | busRead addr bytes => simp only [hostStep, hostBusRead]; split <;> rfl
  | wait => simp only [hostStep, hostWait]; split_ifs <;> rfl
  | loadSrc a bs =>
    obtain ⟨-, -, hhost, -⟩ := hostLoadSrc_keeps a bs s
    simp only [hostStep, hhost]
  | readSrc a => simp only [hostStep, hostReadSrc]; split_ifs <;> simp [hostReadLoc_last]
  | writeDst a b => simp only [hostStep, hostWriteDst]; split_ifs <;> simp
  | readDst a => simp only [hostStep, hostReadDst]; split_ifs <;> simp [hostReadLoc_last]
  | reset =>
    obtain ⟨-, hhost, -⟩ := hostReset_keeps s
    simp only [hostStep, hhost]

theorem HostOp.readsStatus_iff {p : Platform} {op : HostOp} :
    op.readsStatus p = true ↔ op = .wait ∨ op = .rd p .status := by
  cases op <;> simp [HostOp.readsStatus, HostOp.rd, accessedRegister_eq_some, and_comm]

/-- An operation that reads STATUS replies with STATUS, and at BUSY = 0 it does nothing else. -/
theorem hostStep_of_readsStatus {s : State} {op : HostOp} (h : op.readsStatus s.platform = true) :
    (hostStep op s).host.replies = .word s.regs.status :: s.host.replies ∧
      (s.busy = false → hostStep op s = s.reply (.word s.regs.status)) := by
  obtain ⟨hread, hbusy, hidle⟩ := registerReadsAtAnyTime s
  rcases HostOp.readsStatus_iff.1 h with rfl | rfl
  · refine ⟨?_, hidle⟩
    cases hb : s.busy with
    | true => rw [hbusy hb]
    | false => rw [hidle hb]
  · exact ⟨by rw [hread .status]; rfl, fun _ => hread .status⟩

/-- The end of a run after operation `op`, the last one: the reply to look at is the one `op` gives. -/
theorem hostStep_runEnded_iff {s : State} {op : HostOp} (hops : s.host.ops = []) (hlast : s.host.last = some op) :
    (hostStep op s).runEnded ↔
      (hostStep op s).clean ∧ s.busy = false ∧ op.readsStatus s.platform = true := by
  have hplatform := (hostStep_recorded op s).platform
  constructor
  · rintro ⟨hclean, -, hreads, v, hreply, hbit⟩
    rw [hostStep_last, hlast, hplatform, Option.any_some] at hreads
    obtain ⟨hreplies, -⟩ := hostStep_of_readsStatus hreads
    rw [hreplies] at hreply
    cases hreply
    exact ⟨hclean, hbit, hreads⟩
  · rintro ⟨hclean, hb, hreads⟩
    obtain ⟨hreplies, hidle⟩ := hostStep_of_readsStatus hreads
    refine ⟨hclean, by rw [hidle hb]; exact hops, ?_, _, by rw [hreplies]; rfl, hb⟩
    rw [hostStep_last, hlast, hplatform, Option.any_some, hreads]

/-- Settles O8: the step is the host's, so the state it answers is the one its only operation leaves. -/
theorem runEndsAtAStatusRead : Obligations.RunEndsAtAStatusRead := by
  intro s t op hops hturn ht
  rcases Bool.eq_false_or_eq_true s.busy with hb | hb
  · cases (step_of_hosts_turn hb hops (hturn hb)).symm.trans ht
    exact hostStep_runEnded_iff (s := s.afterTurn.afterOp) (op := op) (by simp [hops]) (by simp [hops])
  · cases (step_of_idle hb hops).symm.trans ht
    exact hostStep_runEnded_iff (s := s.afterOp) (op := op) (by simp [hops]) (by simp [hops])

end Sys2Proof.Machine
